-- ==== Sys2Proof/Word.lean ====
section
/-! DEFINITION. The word and byte types of the ModRiscVM CORE (00_scope.md R5, 60_exceptions.md R117). -/

namespace Sys2Proof

/-- R5: every register, memory word, instruction word, operand word and bus data value is an unsigned 16-bit quantity.
`+` and `-` on it wrap modulo 65536, which is the `+16` and `-16` of R11. -/
abbrev Word := BitVec 16

/-- R117: the console's unit of output, an 8-bit value. -/
abbrev Byte := BitVec 8

end Sys2Proof
end

