-- ==== Sys2Proof/Syntax.lean ====
section
/-! DEFINITION. Register names, opcodes and instructions (10_state.md R14; 30_encoding.md R60 to R63, R76). -/

namespace Sys2Proof

/-- R14: the eight registers, by the names of the spec's register table. -/
inductive Reg where
  | out | count | a | b | c | d | e | f
deriving DecidableEq, Repr

/-- R63: the twelve opcodes. -/
inductive Opcode where
  | hlt | pnt | sav | set | cpy | add | sub | xor | nor | and | lst | jnz
deriving DecidableEq, Repr

/-- One constructor per row of the opcode table. The operands are the operand words `w1` and `w2` as the instruction holds
them (R61, R76): a register operand word names a register only if it is at most 7, and the check belongs to the execution of
the instruction (R64, R81), so any word may stand there. -/
inductive Instr where
  | hlt
  | pnt (r1 r2 : Word)
  | sav (r1 r2 : Word)
  | set (r1 imm : Word)
  | cpy (r1 r2 : Word)
  | add (r1 r2 : Word)
  | sub (r1 r2 : Word)
  | xor (r1 r2 : Word)
  | nor (r1 r2 : Word)
  | and (r1 r2 : Word)
  | lst (r1 r2 : Word)
  | jnz (r1 r2 : Word)
deriving DecidableEq, Repr

/-- The opcode of an instruction. -/
def Instr.opcode : Instr → Opcode
  | .hlt => .hlt
  | .pnt _ _ => .pnt
  | .sav _ _ => .sav
  | .set _ _ => .set
  | .cpy _ _ => .cpy
  | .add _ _ => .add
  | .sub _ _ => .sub
  | .xor _ _ => .xor
  | .nor _ _ => .nor
  | .and _ _ => .and
  | .lst _ _ => .lst
  | .jnz _ _ => .jnz

end Sys2Proof
end

