-- ==== Sys2Proof/Decode.lean ====
section
/-! DEFINITION. Decoding and encoding: 30_encoding.md R60 to R67 and R74. -/

namespace Sys2Proof

/-- Why a sequence of words is no instruction. -/
inductive DecodeError where
  /-- The words end before the instruction does. The machine never meets it: memory has a word at every address (log 8). -/
  | truncated
  /-- R67: the opcode word is 12 or more. The machine takes fault 1 on it (R79). -/
  | unrecognizedOpcode (w0 : Word)
deriving DecidableEq, Repr

/-- R63: the value of each opcode. -/
def Opcode.word : Opcode → Word
  | .hlt => 0#16
  | .pnt => 1#16
  | .sav => 2#16
  | .set => 3#16
  | .cpy => 4#16
  | .add => 5#16
  | .sub => 6#16
  | .xor => 7#16
  | .nor => 8#16
  | .and => 9#16
  | .lst => 10#16
  | .jnz => 11#16

/-- R63: the opcode is the whole value of the opcode word; R67: any other value is no opcode. -/
def Opcode.ofWord (w0 : Word) : Option Opcode :=
  match w0.toNat with
  | 0 => some .hlt
  | 1 => some .pnt
  | 2 => some .sav
  | 3 => some .set
  | 4 => some .cpy
  | 5 => some .add
  | 6 => some .sub
  | 7 => some .xor
  | 8 => some .nor
  | 9 => some .and
  | 10 => some .lst
  | 11 => some .jnz
  | _ => none

/-- R62, R66: the length of an instruction in words, a function of its opcode alone. -/
def Opcode.length : Opcode → Nat
  | .hlt => 1
  | _ => 3

/-- R76: an opcode and its operand words make an instruction (HLT has no operand, and uses neither). -/
def Opcode.build (op : Opcode) (w1 w2 : Word) : Instr :=
  match op with
  | .hlt => .hlt
  | .pnt => .pnt w1 w2
  | .sav => .sav w1 w2
  | .set => .set w1 w2
  | .cpy => .cpy w1 w2
  | .add => .add w1 w2
  | .sub => .sub w1 w2
  | .xor => .xor w1 w2
  | .nor => .nor w1 w2
  | .and => .and w1 w2
  | .lst => .lst w1 w2
  | .jnz => .jnz w1 w2

/-- R60 to R66: the instruction at the head of a sequence of words, with the words that follow it. An unrecognised opcode is
reported without looking at a later word (R79). -/
def decode : List Word → Except DecodeError (Instr × List Word)
  | [] => .error .truncated
  | w0 :: ws =>
    match Opcode.ofWord w0 with
    | none => .error (.unrecognizedOpcode w0)
    | some .hlt => .ok (.hlt, ws)
    | some op =>
      match ws with
      | w1 :: w2 :: rest => .ok (op.build w1 w2, rest)
      | _ => .error .truncated

/-- R60, R62, R76: the words of an instruction. -/
def encode : Instr → List Word
  | .hlt => [Opcode.word .hlt]
  | .pnt r1 r2 => [Opcode.word .pnt, r1, r2]
  | .sav r1 r2 => [Opcode.word .sav, r1, r2]
  | .set r1 imm => [Opcode.word .set, r1, imm]
  | .cpy r1 r2 => [Opcode.word .cpy, r1, r2]
  | .add r1 r2 => [Opcode.word .add, r1, r2]
  | .sub r1 r2 => [Opcode.word .sub, r1, r2]
  | .xor r1 r2 => [Opcode.word .xor, r1, r2]
  | .nor r1 r2 => [Opcode.word .nor, r1, r2]
  | .and r1 r2 => [Opcode.word .and, r1, r2]
  | .lst r1 r2 => [Opcode.word .lst, r1, r2]
  | .jnz r1 r2 => [Opcode.word .jnz, r1, r2]

/-- The instructions that a sequence of words spells one after another, reading at most `fuel` of them. -/
def decodeMany : Nat → List Word → Except DecodeError (List Instr)
  | _, [] => .ok []
  | 0, _ :: _ => .error .truncated
  | fuel + 1, w :: ws =>
    match decode (w :: ws) with
    | .error e => .error e
    | .ok (i, rest) =>
      match decodeMany fuel rest with
      | .error e => .error e
      | .ok is => .ok (i :: is)

/-- A whole image read as straight-line code. Every instruction has at least one word, so the image's length is enough fuel. -/
def decodeProgram (ws : List Word) : Except DecodeError (List Instr) := decodeMany ws.length ws

/-- R74, R126: the words of a binary program file, two bytes a word, the most significant first, a trailing odd byte
discarded. -/
def imageOfFile : List Byte → List Word
  | b0 :: b1 :: rest => (b0 ++ b1) :: imageOfFile rest
  | _ => []

/-- R74: the bytes of a binary program file, each word as two bytes, the most significant first. -/
def fileOfImage : List Word → List Byte
  | [] => []
  | w :: ws => w.extractLsb' 8 8 :: w.extractLsb' 0 8 :: fileOfImage ws

/-- The instruction that the bytes of a file begin with, and the words after it: total on any bytes. -/
def decodeBytes (bs : List Byte) : Except DecodeError (Instr × List Word) := decode (imageOfFile bs)

/-- The three words of an instruction given as one number: bit 0 of `w` is bit 0 of the opcode word, the first operand word is
bits 31..16 and the second bits 47..32; bits from `nbits` up are 0. -/
def tableWords (nbits w : Nat) : List Word :=
  let v := w % 2 ^ nbits
  [BitVec.ofNat 16 v, BitVec.ofNat 16 (v / 2 ^ 16), BitVec.ofNat 16 (v / 2 ^ 32)]

/-- The instruction that the decoder reads from the words of `tableWords`. -/
def decodeTableWord (nbits w : Nat) : Option Instr :=
  match decode (tableWords nbits w) with
  | .ok (i, _) => some i
  | .error _ => none

end Sys2Proof
end

