-- ==== Sys2Proof/Config.lean ====
section
/-! DEFINITION. The fixed constants of the CORE (00_scope.md R8), and the two values that the model names where the spec has
an open parameter. -/

namespace Sys2Proof.Config

/-- R8, R114: the address of the console's output flag. -/
def consoleFlag : Word := 8080#16

/-- R8, R114: the address of the console's output data. -/
def consoleData : Word := 8081#16

/-- R8, R125, R127: the offset at which the program image is loaded. -/
def loadOffset : Word := 0#16

/-- R8, R129: the address of the first instruction executed, the reset value of `count`. -/
def entryPoint : Word := 0#16

/-- R7, R33: the number of words of memory. -/
def memorySize : Nat := 65536

/-- What an address that the memory list does not hold reads as. DESIGN CHOICE, unsafe (log 2): the contents of memory that no
image covers are the open parameter `init_mem` (R9, D6), which `State.start` takes as an argument; this is the value that the
list representation leaves out, and the one that `State.reset`, which takes no argument, has everywhere. -/
def unlistedWord : Word := 0#16

/-- The value of registers 0 and 2 to 7 in `State.reset`. DESIGN CHOICE, unsafe (log 1): the spec's reset value is the open
parameter `reset_regs` (R9, D5), which `State.start` takes as an argument. -/
def resetRegister : Word := 0#16

end Sys2Proof.Config
end

