-- ==== Sys2Proof/Machine/State.lean ====
section
/-! DEFINITION. The state of the CORE: 10_state.md R13 to R32. Between two cycles it is the register file, the run status,
memory and the console output stream, and nothing else (R31). -/

namespace Sys2Proof.Machine

/-- R13, R14: the register file, eight cells of 16 bits. -/
structure RegFile where
  out : Word
  count : Word
  a : Word
  b : Word
  c : Word
  d : Word
  e : Word
  f : Word
deriving DecidableEq, Repr

/-- R106: why the core halted. -/
inductive HaltCode where
  /-- Code 0: HLT was executed. Not a fault. -/
  | normal
  /-- Code 1: the opcode word is 12 or more. -/
  | unrecognizedOpcode
  /-- Code 2: a register operand word is above 7. -/
  | registerOutOfRange
  /-- Code 3: a bus request was answered `Fail`. The CORE's memory controller never does (R44). -/
  | busFailure
deriving DecidableEq, Repr

/-- R27: the run status. No instruction reads it. -/
inductive RunStatus where
  | running
  | halted (c : HaltCode)
deriving DecidableEq, Repr

/-- One listed word of memory: its address and its value. The unit is the 16-bit word, because the CORE has no byte
addressing and no byte order (R7, R33, R45; log 4). -/
abbrev Cell := Nat × Word

/-- R29, R33: the 65536 words of memory, as the list of those that differ from `Config.unlistedWord`, addresses strictly
rising. Every content of memory has exactly one such list. -/
abbrev Memory := List Cell

/-- R31: the complete state between two cycles. The console's flag and data registers are the memory words 8080 and 8081
(R114) and have no field of their own. -/
structure State where
  regs : RegFile
  status : RunStatus
  mem : Memory
  console : List Byte
deriving DecidableEq, Repr

/-- Why a step of the model gives no next state. A fault of the CORE (R106) is not one of these: it is taken, and leaves a
next state whose run status is `halted` (log 5). -/
inductive Fault where
  /-- Raised by `step` on a state whose run status is already Halted(c): the core makes no further cycle (R77, R110, I11).
  Safe: the spec gives that state no successor. -/
  | coreHalted (c : HaltCode)
deriving DecidableEq, Repr

/-- Why the model refuses an instruction. -/
inductive Refusal where
  /-- Raised by an arm of `exec` whose instruction has no meaning yet. No arm is such a one. Safe: nothing is claimed of a
  refused instruction. -/
  | notModelled (mnemonic : String)
deriving DecidableEq, Repr

/-- R32: the state at the start of the first cycle, for the instance of the spec's open parameters that its test vectors use:
every register 0, no image, memory all `Config.unlistedWord`. `count` 0, status Running and the empty console stream are the
spec's; the rest is the model's choice (log 1, log 2). `State.start` takes the parameters as arguments. -/
def State.reset : State where
  regs :=
    { out := Config.resetRegister, count := Config.entryPoint, a := Config.resetRegister, b := Config.resetRegister,
      c := Config.resetRegister, d := Config.resetRegister, e := Config.resetRegister, f := Config.resetRegister }
  status := .running
  mem := []
  console := []

end Sys2Proof.Machine
end

