-- ==== Sys2Proof/Machine/Ops.lean ====
section
/-! DEFINITION. The named operations over registers and memory, the advance of `count`, and taking a fault. -/

namespace Sys2Proof.Machine

/-! ### Registers (R13 to R19: no register is hard-wired, none is banked) -/

/-- R12: `x[r]`. -/
def RegFile.get (x : RegFile) : Reg → Word
  | .out => x.out
  | .count => x.count
  | .a => x.a
  | .b => x.b
  | .c => x.c
  | .d => x.d
  | .e => x.e
  | .f => x.f

/-- R12: `x[r] <- v`. -/
def RegFile.set (x : RegFile) (r : Reg) (v : Word) : RegFile :=
  match r with
  | .out => { x with out := v }
  | .count => { x with count := v }
  | .a => { x with a := v }
  | .b => { x with b := v }
  | .c => { x with c := v }
  | .d => { x with d := v }
  | .e => { x with e := v }
  | .f => { x with f := v }

/-- The value of a register. -/
def State.reg (s : State) (r : Reg) : Word := s.regs.get r

/-- The state with one register written. -/
def State.setReg (s : State) (r : Reg) (v : Word) : State := { s with regs := s.regs.set r v }

/-- The state with its memory replaced: what a peripheral's answer to a `Store` leaves. -/
def State.setMem (s : State) (m : Memory) : State := { s with mem := m }

/-- The state with its run status replaced. -/
def State.setStatus (s : State) (st : RunStatus) : State := { s with status := st }

/-- R12: `emit`, for a sequence of bytes: they are appended in order to the console output stream (R117). -/
def State.emit (s : State) (bs : List Byte) : State := { s with console := s.console ++ bs }

/-! ### Memory (R33, R42, R43) -/

/-- The value that a list of cells gives an address. -/
def Memory.lookup : Memory → Nat → Word
  | [], _ => Config.unlistedWord
  | (k, w) :: m, n => if k = n then w else Memory.lookup m n

/-- `M[a]`. -/
def Memory.read (m : Memory) (a : Word) : Word := Memory.lookup m a.toNat

/-- The list without any cell at an address. -/
def Memory.erase : Memory → Nat → Memory
  | [], _ => []
  | (k, w) :: m, n => if k = n then Memory.erase m n else (k, w) :: Memory.erase m n

/-- The list with a cell put before the first one of a higher address. -/
def Memory.insert : Memory → Nat → Word → Memory
  | [], n, v => [(n, v)]
  | (k, w) :: m, n, v => if n < k then (n, v) :: (k, w) :: m else (k, w) :: Memory.insert m n v

/-- `M[a] <- v`. Writing the value that an unlisted address reads as removes the cell, so the list stays canonical. -/
def Memory.write (m : Memory) (a v : Word) : Memory :=
  if v = Config.unlistedWord then m.erase a.toNat else Memory.insert (m.erase a.toNat) a.toNat v

/-- Cells at rising addresses from `lo` up, below the memory's size, none equal to what an unlisted address reads as. -/
def Memory.wfFrom : Nat → Memory → Bool
  | _, [] => true
  | lo, (k, w) :: m => decide (lo ≤ k) && decide (k < Config.memorySize) && (w != Config.unlistedWord) && Memory.wfFrom (k + 1) m

/-- The canonical form: two canonical memories with the same contents are equal lists. -/
def Memory.wf (m : Memory) : Bool := Memory.wfFrom 0 m

/-! ### The program counter (R21 to R25) -/

/-- The working copy `X` of R86: the state with `count` advanced past the three words of the instruction, modulo 65536
(R25, R82). -/
def State.advance (s : State) : State := s.setReg .count (s.reg .count + 3#16)

/-! ### Halting and taking a fault (R83, R106 to R108, R111) -/

/-- R12, R27: the run status becomes Halted(c). -/
def State.halt (s : State) (c : HaltCode) : State := s.setStatus (.halted c)

/-- R12, R83, R107, R108: taking a fault. It is given the state at the start of the cycle, so that no write of the faulting
instruction, the advance of `count` included, is kept; only the code is recorded. There is no handler, no saved register, and
no return from a fault (R111). -/
def raiseFault (c : HaltCode) (s : State) : State := s.halt c

/-- R106: the number of a halt code. -/
def HaltCode.code : HaltCode → Nat
  | .normal => 0
  | .unrecognizedOpcode => 1
  | .registerOutOfRange => 2
  | .busFailure => 3

end Sys2Proof.Machine
end

