-- ==== Sys2Proof/Machine/Bus.lean ====
section
/-! DEFINITION. The bus protocol and the memory controller: 20_memory.md R36 to R44. The core's side of a request is written
for any peripheral, so that its reaction to `Fail` is part of the model; the CORE's own peripheral never answers so (R44). -/

namespace Sys2Proof.Machine

/-- R36, R39: the two requests, their fields named. -/
inductive BusRequest where
  | load (address : Word)
  | store (address value : Word)
deriving DecidableEq, Repr

/-- R36: the answer to a `Load`. The code's values are not given and nothing reads it (R40, I3; log 6). -/
inductive LoadResponse where
  | data (value : Word)
  | fail (code : Nat)
deriving DecidableEq, Repr

/-- R36: the answer to a `Store`. -/
inductive StoreResponse where
  | ack
  | fail (code : Nat)
deriving DecidableEq, Repr

/-- R36, R38, R41: what a peripheral answers, and what a `Store` leaves of its memory. A `Load` changes nothing. -/
structure Peripheral where
  load : Memory → Word → LoadResponse
  store : Memory → Word → Word → StoreResponse × Memory

/-- R42: the answer of the memory controller to `Load(a)`. -/
def controllerLoad (m : Memory) (a : Word) : LoadResponse := .data (m.read a)

/-- R43: the answer of the memory controller to `Store(a, v)`, and the memory after it. -/
def controllerStore (m : Memory) (a v : Word) : StoreResponse × Memory := (.ack, m.write a v)

/-- R33, R38: peripheral 0 of the CORE. -/
def memoryController : Peripheral where
  load := controllerLoad
  store := controllerStore

/-- R37, R40: `BusLoad(a)` by the core within a cycle that began in state `s`: any `Fail` is fault 3 on `s`. -/
def busLoad (per : Peripheral) (s : State) (a : Word) (body : Word → State) : State :=
  match per.load s.mem a with
  | .data v => body v
  | .fail _ => raiseFault .busFailure s

/-- R37, R40: `BusStore(a, v)` by the core within a cycle that began in state `s`. -/
def busStore (per : Peripheral) (s : State) (a v : Word) (body : Memory → State) : State :=
  match per.store s.mem a v with
  | (.ack, m) => body m
  | (.fail _, _) => raiseFault .busFailure s

/-- The memory after the memory controller has served one request. -/
def serve (m : Memory) : BusRequest → Memory
  | .load _ => m
  | .store a v => (controllerStore m a v).2

/-- R37, R48: the memory after a sequence of requests, each served whole before the next. -/
def serveAll : Memory → List BusRequest → Memory
  | m, [] => m
  | m, q :: qs => serveAll (serve m q) qs

end Sys2Proof.Machine
end

