-- ==== Sys2Proof/Machine/Operands.lean ====
section
/-! DEFINITION. Register operands: 10_state.md R14, R20; 30_encoding.md R64; 40_execute_cycle.md R81. There is no other
operand form: SET's immediate is its operand word unchanged (R65), and PNT and SAV address memory by a whole register. -/

namespace Sys2Proof

/-- R14: the index of a register. -/
def Reg.index : Reg → Nat
  | .out => 0
  | .count => 1
  | .a => 2
  | .b => 3
  | .c => 4
  | .d => 5
  | .e => 6
  | .f => 7

/-- R14: the name of a register. -/
def Reg.name : Reg → String
  | .out => "out"
  | .count => "count"
  | .a => "a"
  | .b => "b"
  | .c => "c"
  | .d => "d"
  | .e => "e"
  | .f => "f"

/-- R62: the operand word of a register. -/
def Reg.word (r : Reg) : Word := BitVec.ofNat 16 r.index

/-- R64: the operand word w names register w itself, with no masking; above 7 it names none. -/
def Reg.ofWord (w : Word) : Option Reg :=
  match w.toNat with
  | 0 => some .out
  | 1 => some .count
  | 2 => some .a
  | 3 => some .b
  | 4 => some .c
  | 5 => some .d
  | 6 => some .e
  | 7 => some .f
  | _ => none

end Sys2Proof

namespace Sys2Proof.Machine

/-- R81: the register-index check of an instruction with one register operand (SET). Out of range is fault 2 on the state at
the start of the cycle. -/
def withReg (w1 : Word) (s : State) (body : Reg → State) : State :=
  match Reg.ofWord w1 with
  | some r1 => body r1
  | none => raiseFault .registerOutOfRange s

/-- R81: the register-index check of an instruction with two register operands. -/
def withRegs (w1 w2 : Word) (s : State) (body : Reg → Reg → State) : State :=
  withReg w1 s fun r1 => withReg w2 s fun r2 => body r1 r2

end Sys2Proof.Machine
end

