-- ==== Sys2Proof/Machine/Fetch.lean ====
section
/-! DEFINITION. Fetching an instruction, the requests of a cycle, and placing words in memory: 40_execute_cycle.md R78 to R80
and R87, 70_reset_and_hazards.md R125. -/

namespace Sys2Proof.Machine

/-- What the fetch of a cycle gives: an instruction, or a fault with nothing executed. -/
inductive Fetched where
  | instr (i : Instr)
  | fault (c : HaltCode)
deriving DecidableEq, Repr

/-- R80: the two operand words at `p +16 1` and `p +16 2`, in that order, of an instruction whose opcode is known. -/
def fetchOperands (per : Peripheral) (m : Memory) (p : Word) (op : Opcode) : Fetched :=
  match per.load m (p + 1#16) with
  | .fail _ => .fault .busFailure
  | .data w1 =>
    match per.load m (p + 2#16) with
    | .fail _ => .fault .busFailure
    | .data w2 => .instr (op.build w1 w2)

/-- R78 to R80, R109 (1) to (3): the fetch at `count`, against any peripheral. HLT and an unrecognised opcode fetch no operand
word. -/
def fetchOn (per : Peripheral) (s : State) : Fetched :=
  match per.load s.mem (s.reg .count) with
  | .fail _ => .fault .busFailure
  | .data w0 =>
    match Opcode.ofWord w0 with
    | none => .fault .unrecognizedOpcode
    | some .hlt => .instr .hlt
    | some op => fetchOperands per s.mem (s.reg .count) op

/-- The fetch of the CORE. -/
def fetch (s : State) : Fetched := fetchOn memoryController s

/-- R87, R91, R92: the data request of an instruction, if its operands are registers. -/
def dataRequests (s : State) : Instr → List BusRequest
  | .pnt w1 w2 =>
    match Reg.ofWord w1, Reg.ofWord w2 with
    | some r1, some _ => [.load (s.advance.reg r1)]
    | _, _ => []
  | .sav w1 w2 =>
    match Reg.ofWord w1, Reg.ofWord w2 with
    | some r1, some r2 => [.store (s.advance.reg r2) (s.advance.reg r1)]
    | _, _ => []
  | _ => []

/-- R53, R87: the bus requests of the cycle that starts in a state, in the order the core issues them (none when the core is
halted, R77). -/
def cycleRequests (s : State) : List BusRequest :=
  let p := s.reg .count
  match s.status with
  | .halted _ => []
  | .running =>
    match fetch s with
    | .fault _ => [.load p]
    | .instr .hlt => [.load p]
    | .instr i => .load p :: .load (p + 1#16) :: .load (p + 2#16) :: dataRequests s i

/-- R125: words written one after another from an address up, wrapping at the top of memory; a later word overwrites an
earlier one. -/
def Memory.load : Memory → Word → List Word → Memory
  | m, _, [] => m
  | m, a, w :: ws => Memory.load (m.write a w) (a + 1#16) ws

end Sys2Proof.Machine
end

