-- ==== Sys2Proof/Machine/Boot.lean ====
section
/-! DEFINITION. The start of a run: 10_state.md R32, 70_reset_and_hazards.md R124 to R129. -/

namespace Sys2Proof.Machine

/-- The cells of `f` at the addresses below `n`, put before the list `m`. -/
def Memory.build (f : Word → Word) : Nat → Memory → Memory
  | 0, m => m
  | n + 1, m =>
    Memory.build f n
      (if f (BitVec.ofNat 16 n) = Config.unlistedWord then m else (n, f (BitVec.ofNat 16 n)) :: m)

/-- D6: the memory whose word at every address a is `f a`. -/
def Memory.ofFn (f : Word → Word) : Memory := Memory.build f Config.memorySize []

/-- R32, D5: the register file at reset. `resetRegs` is the spec's open parameter; its entry for `count` is ignored. -/
def RegFile.start (resetRegs : Reg → Word) : RegFile where
  out := resetRegs .out
  count := Config.entryPoint
  a := resetRegs .a
  b := resetRegs .b
  c := resetRegs .c
  d := resetRegs .d
  e := resetRegs .e
  f := resetRegs .f

/-- R32, R124, R125: the state at the start of a run, for every value of the spec's open parameters `reset_regs` (D5) and
`init_mem` (D6) and every program image. -/
def State.start (resetRegs : Reg → Word) (initMem : Word → Word) (image : List Word) : State where
  regs := RegFile.start resetRegs
  status := .running
  mem := Memory.load (Memory.ofFn initMem) Config.loadOffset image
  console := []

end Sys2Proof.Machine
end

