-- ==== Sys2Proof/Machine/Console.lean ====
section
/-! DEFINITION. The console: 60_exceptions.md R114 to R119. -/

namespace Sys2Proof.Machine

/-- R10: the high byte of a word. -/
def highByte (w : Word) : Byte := w.extractLsb' 8 8

/-- R10: the low byte of a word. -/
def lowByte (w : Word) : Byte := w.extractLsb' 0 8

/-- R115, R116: what the console emits for a flag value and a data word: with flag 2 the high byte, then the low byte; with any
other nonzero flag the low byte. -/
def consoleBytes (flag data : Word) : List Byte :=
  if flag = 0#16 then [] else if flag = 2#16 then [highByte data, lowByte data] else [lowByte data]

/-- R115: the peripheral's step once per cycle. A nonzero flag is consumed: the bytes are emitted and the flag cleared. -/
def tick (s : State) : State :=
  if s.mem.read Config.consoleFlag = 0#16 then s
  else
    (s.emit (consoleBytes (s.mem.read Config.consoleFlag) (s.mem.read Config.consoleData))).setMem
      (s.mem.write Config.consoleFlag 0#16)

/-- R85, R110: the tick follows the core's part of every cycle, the halting one included. -/
def endCycle : Host.Outcome State Fault Refusal → Host.Outcome State Fault Refusal
  | .next s => .next (tick s)
  | .fault r => .fault r
  | .refused r => .refused r

end Sys2Proof.Machine
end

