-- ==== Sys2Proof/Machine/Flags.lean ====
section
/-! DEFINITION. The CORE has no flags (10_state.md R26). What other machines keep in flags is here an ordinary value, LST's
result, or a test of a whole register, JNZ's. -/

namespace Sys2Proof.Machine

/-- R100: 1 if u is less than v, both unsigned, else 0. -/
def lessThan (u v : Word) : Word := if u.toNat < v.toNat then 1#16 else 0#16

/-- R102: the condition of JNZ. -/
def isNonzero (u : Word) : Bool := u != 0#16

end Sys2Proof.Machine
end

