-- ==== Sys2Proof/Machine/Alu.lean ====
section
/-! DEFINITION. ADD, SUB, XOR, NOR, AND and LST: 44_alu.md R95 to R101. -/

namespace Sys2Proof.Machine

/-- R15, R84: what the six have in common: two registers are read, after the advance, and the result goes to `out` and to no
other register. -/
def aluOp (f : Word → Word → Word) (w1 w2 : Word) (s : State) : State :=
  withRegs w1 w2 s fun r1 r2 => s.advance.setReg .out (f (s.advance.reg r1) (s.advance.reg r2))

/-- R95: the sum modulo 65536. -/
def aluAdd (u v : Word) : Word := u + v

/-- R96: the difference modulo 65536. -/
def aluSub (u v : Word) : Word := u - v

/-- R97: bitwise exclusive or. -/
def aluXor (u v : Word) : Word := u ^^^ v

/-- R98: bitwise not of or, on 16 bits. -/
def aluNor (u v : Word) : Word := ~~~(u ||| v)

/-- R99: bitwise and. -/
def aluAnd (u v : Word) : Word := u &&& v

/-- R95. -/
def execAdd (w1 w2 : Word) (s : State) : Host.Outcome State Fault Refusal := .next (aluOp aluAdd w1 w2 s)

/-- R96. -/
def execSub (w1 w2 : Word) (s : State) : Host.Outcome State Fault Refusal := .next (aluOp aluSub w1 w2 s)

/-- R97. -/
def execXor (w1 w2 : Word) (s : State) : Host.Outcome State Fault Refusal := .next (aluOp aluXor w1 w2 s)

/-- R98. -/
def execNor (w1 w2 : Word) (s : State) : Host.Outcome State Fault Refusal := .next (aluOp aluNor w1 w2 s)

/-- R99. -/
def execAnd (w1 w2 : Word) (s : State) : Host.Outcome State Fault Refusal := .next (aluOp aluAnd w1 w2 s)

/-- R100. -/
def execLst (w1 w2 : Word) (s : State) : Host.Outcome State Fault Refusal := .next (aluOp lessThan w1 w2 s)

end Sys2Proof.Machine
end

