-- ==== Sys2Proof/Machine/Branch.lean ====
section
/-! DEFINITION. JNZ: 45_branch.md R102. (SET, CPY and PNT also transfer control when they name `count`: R103.) -/

namespace Sys2Proof.Machine

/-- R102: if register r1 is nonzero, jump to the address in register r2; the jump replaces the advance (R82). -/
def execJnz (w1 w2 : Word) (s : State) : Host.Outcome State Fault Refusal :=
  .next (withRegs w1 w2 s fun r1 r2 =>
    if isNonzero (s.advance.reg r1) then s.advance.setReg .count (s.advance.reg r2) else s.advance)

end Sys2Proof.Machine
end

