-- ==== Sys2Proof/Machine/Halt.lean ====
section
/-! DEFINITION. HLT: 41_halt.md R90. -/

namespace Sys2Proof.Machine

/-- R90: halt normally. `count` is not advanced, and no register or memory word changes. -/
def execHlt (s : State) : Host.Outcome State Fault Refusal := .next (s.halt .normal)

end Sys2Proof.Machine
end

