-- ==== Sys2Proof/Machine/MemoryAccess.lean ====
section
/-! DEFINITION. PNT and SAV: 42_memory_access.md R91 and R92. The only addressing mode is a whole register. -/

namespace Sys2Proof.Machine

/-- R91: PNT against any peripheral. -/
def pntOn (per : Peripheral) (w1 w2 : Word) (s : State) : State :=
  withRegs w1 w2 s fun r1 r2 =>
    busLoad per s (s.advance.reg r1) fun v => s.advance.setReg r2 v

/-- R92: SAV against any peripheral. -/
def savOn (per : Peripheral) (w1 w2 : Word) (s : State) : State :=
  withRegs w1 w2 s fun r1 r2 =>
    busStore per s (s.advance.reg r2) (s.advance.reg r1) fun m => s.advance.setMem m

/-- R91: load register r2 from the word addressed by register r1. -/
def execPnt (w1 w2 : Word) (s : State) : Host.Outcome State Fault Refusal := .next (pntOn memoryController w1 w2 s)

/-- R92: store register r1 into the word addressed by register r2. -/
def execSav (w1 w2 : Word) (s : State) : Host.Outcome State Fault Refusal := .next (savOn memoryController w1 w2 s)

end Sys2Proof.Machine
end

