-- ==== Sys2Proof/Machine/RegisterMove.lean ====
section
/-! DEFINITION. SET and CPY: 43_register_move.md R93 and R94. -/

namespace Sys2Proof.Machine

/-- R93: set register r1 to the 16-bit immediate, which is not range-checked (R65). -/
def execSet (w1 imm : Word) (s : State) : Host.Outcome State Fault Refusal :=
  .next (withReg w1 s fun r1 => s.advance.setReg r1 imm)

/-- R94: copy register r1 into register r2. -/
def execCpy (w1 w2 : Word) (s : State) : Host.Outcome State Fault Refusal :=
  .next (withRegs w1 w2 s fun r1 r2 => s.advance.setReg r2 (s.advance.reg r1))

end Sys2Proof.Machine
end

