-- ==== Sys2Proof/Machine/Dispatch.lean ====
section
/-! DEFINITION. The meaning of each instruction, one arm each: the core's part of a cycle after the fetch, that is the register
check, the advance of `count`, the semantics and the commit (R81 to R84). The console tick is the step's (R85). -/

namespace Sys2Proof.Machine

def exec (i : Instr) (s : State) : Host.Outcome State Fault Refusal :=
  match i with
  | .hlt => Sys2Proof.Machine.execHlt s
  | .pnt r1 r2 => Sys2Proof.Machine.execPnt r1 r2 s
  | .sav r1 r2 => Sys2Proof.Machine.execSav r1 r2 s
  | .set r1 imm => Sys2Proof.Machine.execSet r1 imm s
  | .cpy r1 r2 => Sys2Proof.Machine.execCpy r1 r2 s
  | .add r1 r2 => Sys2Proof.Machine.execAdd r1 r2 s
  | .sub r1 r2 => Sys2Proof.Machine.execSub r1 r2 s
  | .xor r1 r2 => Sys2Proof.Machine.execXor r1 r2 s
  | .nor r1 r2 => Sys2Proof.Machine.execNor r1 r2 s
  | .and r1 r2 => Sys2Proof.Machine.execAnd r1 r2 s
  | .lst r1 r2 => Sys2Proof.Machine.execLst r1 r2 s
  | .jnz r1 r2 => Sys2Proof.Machine.execJnz r1 r2 s

end Sys2Proof.Machine
end

