-- ==== Sys2Proof/Machine/Step.lean ====
section
/-! DEFINITION. One step of the machine: one cycle of the core and the console tick after it (00_scope.md R4,
40_execute_cycle.md R77 to R86). -/

namespace Sys2Proof.Machine

/-- R77: a cycle runs only while the run status is Running; R78 to R85: fetch, execute or take the fetch's fault, tick. A halted
core makes no step (I11; log 5). -/
def step (s : State) : Host.Outcome State Fault Refusal :=
  match s.status with
  | .halted c => .fault (.coreHalted c)
  | .running =>
    match fetch s with
    | .instr i => endCycle (exec i s)
    | .fault c => endCycle (.next (raiseFault c s))

/-- The state with the words of an instruction, given as one number, stored at `count` and the two addresses after it. It stands
for the host's loading of a program (R125, R134; log 3) and changes memory only: a halted core stays halted. -/
def State.withFetchWord (s : State) (nbits w : Nat) : State :=
  s.setMem (Memory.load s.mem (s.reg .count) (tableWords nbits w))

end Sys2Proof.Machine
end

