-- ==== Sys2Proof/Machine/Reference.lean ====
section
/-! DEFINITION. The cycle of R86 as the spec's pseudocode writes it, over an abstract state with memory and registers as
functions: a second reading of the spec, with no decoder and no instruction type, that the step is compared with. -/

namespace Sys2Proof.Machine

/-- R31: (x[0..7], run status, M[0..65535], console output stream). -/
structure AbstractState where
  x : Fin 8 → Word
  status : RunStatus
  memory : Word → Word
  output : List Byte

/-- The register with an index. -/
def regOfFin (i : Fin 8) : Reg := (Reg.ofWord (BitVec.ofNat 16 i.val)).getD .out

/-- The abstract state that a state of the model stands for. -/
def State.abstract (s : State) : AbstractState where
  x i := s.reg (regOfFin i)
  status := s.status
  memory := s.mem.read
  output := s.console

/-- The register index of an operand word, used after the range check only. -/
def AbstractState.index (w : Word) : Fin 8 := Fin.ofNat 8 w.toNat

/-- R42: the answer of the CORE's controller to `Load(a)`. -/
def AbstractState.busLoad (σ : AbstractState) (a : Word) : LoadResponse := .data (σ.memory a)

/-- R115: `tick()`. -/
def AbstractState.tick (σ : AbstractState) : AbstractState :=
  if (σ.memory 8080#16).toNat ≠ 0 then
    { σ with
      output :=
        if (σ.memory 8080#16).toNat = 2 then
          σ.output ++ [BitVec.ofNat 8 ((σ.memory 8081#16).toNat / 256), BitVec.ofNat 8 ((σ.memory 8081#16).toNat % 256)]
        else σ.output ++ [BitVec.ofNat 8 ((σ.memory 8081#16).toNat % 256)]
      memory := Function.update σ.memory 8080#16 0#16 }
  else σ

/-- R86: `raise Fault(c)` and `halt(0)`: the working copy is discarded, then the tick runs. -/
def AbstractState.stop (σ : AbstractState) (c : HaltCode) : AbstractState := { σ with status := .halted c }.tick

/-- R91 to R102: `execute(w0, w1, w2, X)` and the commit, or a fault. -/
def AbstractState.execute (σ : AbstractState) (w0 w1 w2 : Word) (X : Fin 8 → Word) : AbstractState :=
  let r1 := AbstractState.index w1
  let r2 := AbstractState.index w2
  match w0.toNat with
  | 1 =>
    match σ.busLoad (X r1) with
    | .fail _ => σ.stop .busFailure
    | .data v => { σ with x := Function.update X r2 v }.tick
  | 2 => { σ with x := X, memory := Function.update σ.memory (X r2) (X r1) }.tick
  | 3 => { σ with x := Function.update X r1 w2 }.tick
  | 4 => { σ with x := Function.update X r2 (X r1) }.tick
  | 5 => { σ with x := Function.update X 0 (BitVec.ofNat 16 (((X r1).toNat + (X r2).toNat) % 65536)) }.tick
  | 6 => { σ with x := Function.update X 0 (BitVec.ofNat 16 (((X r1).toNat + 65536 - (X r2).toNat) % 65536)) }.tick
  | 7 => { σ with x := Function.update X 0 (X r1 ^^^ X r2) }.tick
  | 8 => { σ with x := Function.update X 0 (~~~(X r1 ||| X r2)) }.tick
  | 9 => { σ with x := Function.update X 0 (X r1 &&& X r2) }.tick
  | 10 => { σ with x := Function.update X 0 (if (X r1).toNat < (X r2).toNat then 1#16 else 0#16) }.tick
  | _ => { σ with x := if (X r1).toNat ≠ 0 then Function.update X 1 (X r2) else X }.tick

/-- R86: `cycle()`, for a state whose run status is Running. -/
def AbstractState.cycle (σ : AbstractState) : AbstractState :=
  let p := σ.x 1
  match σ.busLoad p with
  | .fail _ => σ.stop .busFailure
  | .data w0 =>
    if w0.toNat = 0 then σ.stop .normal
    else if 11 < w0.toNat then σ.stop .unrecognizedOpcode
    else
      match σ.busLoad (p + 1#16) with
      | .fail _ => σ.stop .busFailure
      | .data w1 =>
        match σ.busLoad (p + 2#16) with
        | .fail _ => σ.stop .busFailure
        | .data w2 =>
          if 7 < w1.toNat then σ.stop .registerOutOfRange
          else if w0.toNat ≠ 3 ∧ 7 < w2.toNat then σ.stop .registerOutOfRange
          else σ.execute w0 w1 w2 (Function.update σ.x 1 (p + 3#16))

end Sys2Proof.Machine
end

