-- ==== Sys2Proof/WellFormed.lean ====
section
/-! DEFINITION. Which instructions are legal: 30_encoding.md R64 and R67. -/

namespace Sys2Proof

/-- R64: a register operand word is valid if and only if it is at most 7. -/
def isRegisterOperand (w : Word) : Bool := decide (w.toNat ≤ 7)

/-- R67: an instruction is legal when each of its register operand words is valid; SET's immediate is any word (R65). -/
def Instr.wellFormed : Instr → Bool
  | .hlt => true
  | .set r1 _ => isRegisterOperand r1
  | .pnt r1 r2 => isRegisterOperand r1 && isRegisterOperand r2
  | .sav r1 r2 => isRegisterOperand r1 && isRegisterOperand r2
  | .cpy r1 r2 => isRegisterOperand r1 && isRegisterOperand r2
  | .add r1 r2 => isRegisterOperand r1 && isRegisterOperand r2
  | .sub r1 r2 => isRegisterOperand r1 && isRegisterOperand r2
  | .xor r1 r2 => isRegisterOperand r1 && isRegisterOperand r2
  | .nor r1 r2 => isRegisterOperand r1 && isRegisterOperand r2
  | .and r1 r2 => isRegisterOperand r1 && isRegisterOperand r2
  | .lst r1 r2 => isRegisterOperand r1 && isRegisterOperand r2
  | .jnz r1 r2 => isRegisterOperand r1 && isRegisterOperand r2

end Sys2Proof
end

