-- ==== Sys2Proof/Safety.lean ====
section
/-! DEFINITION. The terms that claims use: what an instruction reads, what a step leaves unchanged, how a fault ends it, and
what a run is and when it is safe. -/

namespace Sys2Proof.Machine

/-- R22, R82, R84: what an instruction with opcode 1 to 11 reads from a register: for `count` the address of its opcode word
plus 3, for any other register the value at the start of the cycle. -/
def State.operand (s : State) (r : Reg) : Word := if r = .count then s.reg .count + 3#16 else s.reg r

/-- Every register outside the list is unchanged. -/
def KeepsRegsExcept (rs : List Reg) (s t : State) : Prop := ∀ r, r ∉ rs → t.reg r = s.reg r

/-- Every word of memory is unchanged. -/
def KeepsMemory (s t : State) : Prop := ∀ a, t.mem.read a = s.mem.read a

/-- Every word of memory is unchanged but the one at an address. -/
def KeepsMemoryExcept (a : Word) (s t : State) : Prop := ∀ b, b ≠ a → t.mem.read b = s.mem.read b

/-- The run status and the console output stream are unchanged. -/
def KeepsStatusAndConsole (s t : State) : Prop := t.status = s.status ∧ t.console = s.console

/-- R83, R90, R107, R108: halting with a code leaves every register, every word of memory and the console as they were. -/
def HaltsWith (c : HaltCode) (s t : State) : Prop :=
  t.status = .halted c ∧ KeepsRegsExcept [] s t ∧ KeepsMemory s t ∧ t.console = s.console

/-- Three words, the first of them w0, decode to the instruction that `mk` makes of the other two. -/
def DecodesAs (w0 : Word) (mk : Word → Word → Instr) : Prop :=
  ∀ w1 w2 rest, decode (w0 :: w1 :: w2 :: rest) = .ok (mk w1 w2, rest)

/-- R81: a register operand word above 7 in either place is fault 2. -/
def FaultsOnBadRegisters (mk : Word → Word → Instr) : Prop :=
  ∀ s w1 w2, 7 < w1.toNat ∨ 7 < w2.toNat → ∃ t, exec (mk w1 w2) s = .next t ∧ HaltsWith .registerOutOfRange s t

/-- R78, R80: whatever the peripheral, a `Fail` answer to one of the three fetches of an instruction with opcode word w0 is
fault 3. -/
def FaultsOnFetchFailure (w0 : Word) : Prop :=
  ∀ (per : Peripheral) (s : State) (c : Nat),
    (per.load s.mem (s.reg .count) = .fail c → fetchOn per s = .fault .busFailure) ∧
    (per.load s.mem (s.reg .count) = .data w0 →
      per.load s.mem (s.reg .count + 1#16) = .fail c ∨ per.load s.mem (s.reg .count + 2#16) = .fail c →
      fetchOn per s = .fault .busFailure)

/-- What rules R95 to R100 have in common. `result u v out` relates the two operands and the value written to `out`. -/
def AluRule (w0 : Word) (mk : Word → Word → Instr) (result : Word → Word → Word → Prop) : Prop :=
  DecodesAs w0 mk ∧ FaultsOnFetchFailure w0 ∧ FaultsOnBadRegisters mk ∧
  ∀ (s : State) (r1 r2 : Reg), ∃ t, exec (mk r1.word r2.word) s = .next t ∧
    result (s.operand r1) (s.operand r2) (t.reg .out) ∧
    t.reg .count = s.reg .count + 3#16 ∧
    KeepsRegsExcept [.out, .count] s t ∧ KeepsMemory s t ∧ KeepsStatusAndConsole s t

/-- R103: the instruction, executed in this state, writes register 1 by its own semantics. -/
def WritesCount (i : Instr) (s : State) : Prop :=
  match i with
  | .jnz w1 _ => ∃ r1 : Reg, w1 = r1.word ∧ s.operand r1 ≠ 0#16
  | .set w1 _ => w1 = Reg.count.word
  | .cpy _ w2 => w2 = Reg.count.word
  | .pnt _ w2 => w2 = Reg.count.word
  | .hlt => False
  | .sav _ _ => False
  | .add _ _ => False
  | .sub _ _ => False
  | .xor _ _ => False
  | .nor _ _ => False
  | .and _ _ => False
  | .lst _ _ => False

/-- R22, R23, R80 to R85: the cycle from `s` fetches the instruction `i`, the advance takes `count` to `next`, and the step is the
meaning of `i` and then one tick; after it `count` is `next`, unless `i` is illegal or writes `count` itself. -/
def CycleRunsThenGoesTo (i : Instr) (next : Word) (s : State) : Prop :=
  fetch s = .instr i ∧ s.advance.reg .count = next ∧
  ∃ u, exec i s = .next u ∧ step s = .next (tick u) ∧
    (i.wellFormed = true → ¬ WritesCount i s → (tick u).reg .count = next)

/-- The opcode words and operand words at `count`, as the cycle fetches them (R25, R60). -/
def State.instructionWords (s : State) : List Word :=
  [s.mem.read (s.reg .count), s.mem.read (s.reg .count + 1#16), s.mem.read (s.reg .count + 2#16)]

/-- R67, R109: what the run status becomes in a cycle, from the three words at `count`. -/
def statusAfter (w0 w1 w2 : Word) : RunStatus :=
  if w0.toNat = 0 then .halted .normal
  else if 12 ≤ w0.toNat then .halted .unrecognizedOpcode
  else if 7 < w1.toNat then .halted .registerOutOfRange
  else if w0.toNat ≠ 3 ∧ 7 < w2.toNat then .halted .registerOutOfRange
  else .running

/-- The memory is in its canonical form. -/
def State.canonical (s : State) : Prop := s.mem.wf = true

/-- R77: the states that a run from `s` passes through. -/
inductive Reachable (s : State) : State → Prop where
  | refl : Reachable s s
  | next {t u : State} : Reachable s t → step t = .next u → Reachable s u

/-- R107: the run has ended by a fault. -/
def State.faulted (s : State) : Prop := ∃ c, s.status = .halted c ∧ c ≠ .normal

/-- R67: the words at `count` are a legal instruction. -/
def State.legalNext (s : State) : Prop := ∃ i, fetch s = .instr i ∧ i.wellFormed = true

/-- A safe run: no state of it has faulted. -/
def SafeFrom (s : State) : Prop := ∀ t, Reachable s t → ¬ t.faulted

end Sys2Proof.Machine
end

