-- ==== Sys2Proof/Certificates/Slice0/Obligations.lean ====
section
/-! DEFINITION. What is claimed of the model, for the provers. Each statement names the rule of the spec that it formalises. -/

open Sys2Proof Sys2Proof.Machine

/-! ### Encoding -/

/-- 30_encoding.md R63: the opcode is the whole opcode word, and exactly twelve values are opcodes. -/
def Obligations.OpcodeMapDecodes : Prop :=
  ∀ (w0 w1 w2 : Word) (rest : List Word),
    decode (w0 :: w1 :: w2 :: rest) =
      if w0 = 0x0000#16 then .ok (.hlt, w1 :: w2 :: rest)
      else if w0 = 0x0001#16 then .ok (.pnt w1 w2, rest)
      else if w0 = 0x0002#16 then .ok (.sav w1 w2, rest)
      else if w0 = 0x0003#16 then .ok (.set w1 w2, rest)
      else if w0 = 0x0004#16 then .ok (.cpy w1 w2, rest)
      else if w0 = 0x0005#16 then .ok (.add w1 w2, rest)
      else if w0 = 0x0006#16 then .ok (.sub w1 w2, rest)
      else if w0 = 0x0007#16 then .ok (.xor w1 w2, rest)
      else if w0 = 0x0008#16 then .ok (.nor w1 w2, rest)
      else if w0 = 0x0009#16 then .ok (.and w1 w2, rest)
      else if w0 = 0x000A#16 then .ok (.lst w1 w2, rest)
      else if w0 = 0x000B#16 then .ok (.jnz w1 w2, rest)
      else .error (.unrecognizedOpcode w0)

/-- R62, R63, R74: a few words, written out from the encodings, decode to the instructions they stand for; the bytes are those
of 95_test_vectors.md S1. -/
def Obligations.WrittenOutWordsDecode : Prop :=
  decodeBytes [0x00, 0x03, 0x00, 0x02, 0x00, 0x05, 0x00, 0x00] = .ok (.set Reg.a.word 5#16, [0#16]) ∧
  decode [0#16] = .ok (.hlt, []) ∧
  decode [1, 6, 5] = .ok (.pnt Reg.e.word Reg.d.word, []) ∧
  decode [2, 4, 5] = .ok (.sav Reg.c.word Reg.d.word, []) ∧
  decode [4, 0, 3] = .ok (.cpy Reg.out.word Reg.b.word, []) ∧
  decode [5, 3, 2] = .ok (.add Reg.b.word Reg.a.word, []) ∧
  decode [11, 1, 7] = .ok (.jnz Reg.count.word Reg.f.word, [])

/-- R60 to R66: encoding an instruction, legal or not, and decoding it gives it back, and touches nothing after it. -/
def Obligations.DecodeOfEncode : Prop :=
  ∀ (i : Instr) (rest : List Word), decode (encode i ++ rest) = .ok (i, rest)

/-- R60 to R66: a sequence of words that decodes to an instruction begins with that instruction's words, so that each
instruction has one encoding and no bit of it is dropped. -/
def Obligations.EncodeOfDecode : Prop :=
  ∀ (ws : List Word) (i : Instr) (rest : List Word), decode ws = .ok (i, rest) → ws = encode i ++ rest

/-- R60 to R66, R74, R126: a program, encoded, written to a file as big-endian bytes, with or without a trailing odd byte, read
back as an image and decoded from its first word to its last, is the same program. -/
def Obligations.ProgramFileRoundTrip : Prop :=
  ∀ (prog : List Instr) (odd : List Byte), odd.length ≤ 1 →
    decodeProgram (imageOfFile (fileOfImage (prog.flatMap encode) ++ odd)) = .ok prog

/-- 10_state.md R14: the eight names map to distinct indices 0 to 7. -/
def Obligations.RegisterNamesAreDistinctIndices : Prop :=
  [Reg.out, .count, .a, .b, .c, .d, .e, .f].map (fun r => (r.name, r.index)) =
    [("out", 0), ("count", 1), ("a", 2), ("b", 3), ("c", 4), ("d", 5), ("e", 6), ("f", 7)] ∧
  ∀ r : Reg, r ∈ [Reg.out, .count, .a, .b, .c, .d, .e, .f]

/-- 30_encoding.md R64, 10_state.md R20: an operand word names a register exactly when it is at most 7, and then the register of
that very index; every register is so named. -/
def Obligations.RegisterOperandRange : Prop :=
  (∀ w : Word, (Reg.ofWord w).isSome = true ↔ w.toNat ≤ 7) ∧
  (∀ (w : Word) (r : Reg), Reg.ofWord w = some r → r.index = w.toNat) ∧
  ∀ r : Reg, Reg.ofWord r.word = some r ∧ r.word.toNat = r.index

/-! ### The cycle -/

/-- 00_scope.md R4, 40_execute_cycle.md R78 to R85: when the three words at `count` decode to an instruction, the step is that
instruction's meaning and then one tick. When their first is no opcode, the step takes fault 1 and then one tick. -/
def Obligations.StepRunsTheDecodedInstruction : Prop :=
  (∀ (s : State) (i : Instr) (rest : List Word), s.status = .running → decode s.instructionWords = .ok (i, rest) →
    ∃ u, exec i s = .next u ∧ step s = .next (tick u)) ∧
  (∀ (s : State) (w0 : Word), s.status = .running → decode s.instructionWords = .error (.unrecognizedOpcode w0) →
    step s = .next (tick (raiseFault .unrecognizedOpcode s)))

/-- 30_encoding.md R67: what every sequence of three words at `count` does to the run status: an opcode word of 12 or more is
fault 1, a register operand word of 8 or more is fault 2 (not in the second place for SET), every other sequence is legal. A
cycle that ends in Halted mutates no register. -/
def Obligations.IllegalEncodingsFault : Prop :=
  ∀ s : State, s.status = .running →
    ∃ t, step s = .next t ∧
      t.status = statusAfter (s.mem.read (s.reg .count)) (s.mem.read (s.reg .count + 1#16)) (s.mem.read (s.reg .count + 2#16)) ∧
      (t.status ≠ .running → KeepsRegsExcept [] s t)

/-- 40_execute_cycle.md R83, 60_exceptions.md R108: a cycle that halts, by HLT or by a fault, leaves the state it started from
with the run status Halted(c), but for the console tick; `count` is still the address of the instruction. -/
def Obligations.HaltingCyclesArePrecise : Prop :=
  ∀ (s t : State) (c : HaltCode), step s = .next t → t.status = .halted c →
    t = tick (s.halt c) ∧ t.reg .count = s.reg .count

/-- 20_memory.md R40: whatever the peripheral and whatever the code, a `Fail` answer to any of the core's requests (the opcode
fetch, the operand fetches of opcodes 1 to 11, PNT's `Load`, SAV's `Store`) ends the cycle with fault 3. -/
def Obligations.AnyBusFailureIsFaultThree : Prop :=
  (∀ (per : Peripheral) (s : State) (c : Nat), per.load s.mem (s.reg .count) = .fail c →
    fetchOn per s = .fault .busFailure) ∧
  (∀ (per : Peripheral) (s : State) (op : Opcode) (c : Nat), op ≠ .hlt →
    per.load s.mem (s.reg .count) = .data op.word →
    per.load s.mem (s.reg .count + 1#16) = .fail c ∨ per.load s.mem (s.reg .count + 2#16) = .fail c →
    fetchOn per s = .fault .busFailure) ∧
  (∀ (per : Peripheral) (s : State) (r1 r2 : Reg) (c : Nat), per.load s.mem (s.operand r1) = .fail c →
    pntOn per r1.word r2.word s = raiseFault .busFailure s) ∧
  (∀ (per : Peripheral) (s : State) (r1 r2 : Reg) (c : Nat) (m : Memory),
    per.store s.mem (s.operand r2) (s.operand r1) = (.fail c, m) →
    savOn per r1.word r2.word s = raiseFault .busFailure s)

/-- 20_memory.md R44: the CORE's memory controller never answers `Fail`, and no cycle of the CORE ends in fault 3. -/
def Obligations.ControllerNeverFails : Prop :=
  (∀ (m : Memory) (a : Word), ∃ v, memoryController.load m a = .data v) ∧
  (∀ (m : Memory) (a v : Word), ∃ n, memoryController.store m a v = (.ack, n)) ∧
  (∀ s t : State, step s = .next t → t.status ≠ .halted .busFailure)

/-- 60_exceptions.md R106: the numbers of the halt codes. -/
def Obligations.HaltCodesAreTheTablesNumbers : Prop :=
  HaltCode.normal.code = 0 ∧ HaltCode.unrecognizedOpcode.code = 1 ∧ HaltCode.registerOutOfRange.code = 2 ∧
  HaltCode.busFailure.code = 3

/-- R77, R107, R110: a halted core makes no step, and a run from a halted state has no other state. That the model answers the
fault `coreHalted` there is its own choice (log 5). -/
def Obligations.HaltedCoreMakesNoStep : Prop :=
  ∀ (s : State) (c : HaltCode), s.status = .halted c →
    step s = .fault (.coreHalted c) ∧ ∀ t, Reachable s t → t = s

/-- 10_state.md R25: an instruction with opcode 1 to 11 at 65534 has its operand words at 65535 and 0, and `count` goes on to 1;
one at 65535 has them at 0 and 1, and `count` goes on to 2. The last two clauses are the result of SET there, an immediate that
lies past the wrap included (43_register_move.md R93). The wrap is the spec's decision D1 (log 7). -/
def Obligations.InstructionWrapsAtTopOfMemory : Prop :=
  (∀ (s : State) (op : Opcode), s.status = .running → op ≠ .hlt →
    s.reg .count = 65534#16 → s.mem.read 65534#16 = op.word →
    CycleRunsThenGoesTo (op.build (s.mem.read 65535#16) (s.mem.read 0#16)) 1#16 s) ∧
  (∀ (s : State) (op : Opcode), s.status = .running → op ≠ .hlt →
    s.reg .count = 65535#16 → s.mem.read 65535#16 = op.word →
    CycleRunsThenGoesTo (op.build (s.mem.read 0#16) (s.mem.read 1#16)) 2#16 s) ∧
  (∀ (s : State) (r1 : Reg), s.status = .running → s.reg .count = 65534#16 → s.mem.read 65534#16 = 3#16 →
    s.mem.read 65535#16 = r1.word →
    ∃ t, step s = .next t ∧ t.reg r1 = s.mem.read 0#16 ∧ (r1 ≠ .count → t.reg .count = 1#16) ∧
      KeepsRegsExcept [r1, .count] s t) ∧
  (∀ (s : State) (r1 : Reg), s.status = .running → s.reg .count = 65535#16 → s.mem.read 65535#16 = 3#16 →
    s.mem.read 0#16 = r1.word →
    ∃ t, step s = .next t ∧ t.reg r1 = s.mem.read 1#16 ∧ (r1 ≠ .count → t.reg .count = 2#16) ∧
      KeepsRegsExcept [r1, .count] s t)

/-- 40_execute_cycle.md R86: the step is the spec's pseudocode of the whole cycle, with memory and registers read as
functions. -/
def Obligations.StepIsThePseudocodeCycle : Prop :=
  ∀ s : State, s.status = .running → ∃ t, step s = .next t ∧ t.abstract = s.abstract.cycle

/-! ### The instructions -/

/-- 41_halt.md R90: HLT halts normally and changes nothing else; it fetches no operand word, so its fetch does not depend on any
later word; a `Fail` answer to its fetch is fault 3; the tick of its cycle still runs; and Halted(0) is reached by HLT only. -/
def Obligations.HltHaltsNormally : Prop :=
  (∀ rest, decode (0#16 :: rest) = .ok (.hlt, rest)) ∧
  (∀ s, ∃ t, exec .hlt s = .next t ∧ HaltsWith .normal s t ∧
    (s.status = .running → s.mem.read (s.reg .count) = 0#16 → step s = .next (tick t))) ∧
  (∀ (per : Peripheral) (s : State), per.load s.mem (s.reg .count) = .data 0#16 → fetchOn per s = .instr .hlt) ∧
  (∀ (per : Peripheral) (s : State) (c : Nat), per.load s.mem (s.reg .count) = .fail c →
    fetchOn per s = .fault .busFailure) ∧
  (∀ s t, step s = .next t → (t.status = .halted .normal ↔ s.mem.read (s.reg .count) = 0#16))

/-- 42_memory_access.md R91: PNT loads register r2 with the word addressed by register r1; fault 2 on an operand word above 7,
fault 3 on a `Fail` answer to a fetch or to the data `Load`. -/
def Obligations.PntLoadsTheAddressedWord : Prop :=
  DecodesAs 1#16 .pnt ∧ FaultsOnFetchFailure 1#16 ∧ FaultsOnBadRegisters .pnt ∧
  (∀ (s : State) (w1 w2 : Word), exec (.pnt w1 w2) s = .next (pntOn memoryController w1 w2 s)) ∧
  (∀ (per : Peripheral) (s : State) (r1 r2 : Reg) (c : Nat), per.load s.mem (s.operand r1) = .fail c →
    HaltsWith .busFailure s (pntOn per r1.word r2.word s)) ∧
  (∀ (s : State) (r1 r2 : Reg), ∃ t, exec (.pnt r1.word r2.word) s = .next t ∧
    t.reg r2 = s.mem.read (s.operand r1) ∧
    (r2 ≠ .count → t.reg .count = s.reg .count + 3#16) ∧
    KeepsRegsExcept [r2, .count] s t ∧ KeepsMemory s t ∧ KeepsStatusAndConsole s t)

/-- 42_memory_access.md R92: SAV stores register r1 into the word addressed by register r2; fault 2 on an operand word above 7,
fault 3 on a `Fail` answer to a fetch or to the `Store`. -/
def Obligations.SavStoresAtTheAddress : Prop :=
  DecodesAs 2#16 .sav ∧ FaultsOnFetchFailure 2#16 ∧ FaultsOnBadRegisters .sav ∧
  (∀ (s : State) (w1 w2 : Word), exec (.sav w1 w2) s = .next (savOn memoryController w1 w2 s)) ∧
  (∀ (per : Peripheral) (s : State) (r1 r2 : Reg) (c : Nat) (m : Memory),
    per.store s.mem (s.operand r2) (s.operand r1) = (.fail c, m) →
    HaltsWith .busFailure s (savOn per r1.word r2.word s)) ∧
  (∀ (s : State) (r1 r2 : Reg), ∃ t, exec (.sav r1.word r2.word) s = .next t ∧
    t.mem.read (s.operand r2) = s.operand r1 ∧ KeepsMemoryExcept (s.operand r2) s t ∧
    t.reg .count = s.reg .count + 3#16 ∧ KeepsRegsExcept [.count] s t ∧ KeepsStatusAndConsole s t)

/-- 43_register_move.md R93: SET writes its immediate, any word, to register r1; fault 2 only if the first operand word is
above 7; fault 3 on a `Fail` answer to a fetch. -/
def Obligations.SetWritesTheImmediate : Prop :=
  DecodesAs 3#16 .set ∧ FaultsOnFetchFailure 3#16 ∧
  (∀ (s : State) (w1 imm : Word), 7 < w1.toNat →
    ∃ t, exec (.set w1 imm) s = .next t ∧ HaltsWith .registerOutOfRange s t) ∧
  (∀ (s : State) (r1 : Reg) (imm : Word), ∃ t, exec (.set r1.word imm) s = .next t ∧
    t.reg r1 = imm ∧ (r1 ≠ .count → t.reg .count = s.reg .count + 3#16) ∧
    KeepsRegsExcept [r1, .count] s t ∧ KeepsMemory s t ∧ KeepsStatusAndConsole s t)

/-- 43_register_move.md R94: CPY copies register r1 into register r2, `count` reading as p + 3. -/
def Obligations.CpyCopiesTheRegister : Prop :=
  DecodesAs 4#16 .cpy ∧ FaultsOnFetchFailure 4#16 ∧ FaultsOnBadRegisters .cpy ∧
  (∀ (s : State) (r1 r2 : Reg), ∃ t, exec (.cpy r1.word r2.word) s = .next t ∧
    t.reg r2 = s.operand r1 ∧ (r2 ≠ .count → t.reg .count = s.reg .count + 3#16) ∧
    KeepsRegsExcept [r2, .count] s t ∧ KeepsMemory s t ∧ KeepsStatusAndConsole s t)

/-- 44_alu.md R95: ADD writes the sum modulo 65536 to `out`. -/
def Obligations.AddWritesTheWrappedSum : Prop :=
  AluRule 5#16 .add fun u v out => out.toNat = (u.toNat + v.toNat) % 65536

/-- 44_alu.md R96: SUB writes the difference modulo 65536 to `out`. -/
def Obligations.SubWritesTheWrappedDifference : Prop :=
  AluRule 6#16 .sub fun u v out => (out.toNat : Int) = ((u.toNat : Int) - v.toNat) % 65536

/-- 44_alu.md R97: XOR is bitwise on all 16 bits. -/
def Obligations.XorWritesBitwiseXor : Prop :=
  AluRule 7#16 .xor fun u v out => ∀ k < 16, out.getLsbD k = (u.getLsbD k ^^ v.getLsbD k)

/-- 44_alu.md R98: NOR is bitwise on all 16 bits. -/
def Obligations.NorWritesBitwiseNor : Prop :=
  AluRule 8#16 .nor fun u v out => ∀ k < 16, out.getLsbD k = !(u.getLsbD k || v.getLsbD k)

/-- 44_alu.md R99: AND is bitwise on all 16 bits. -/
def Obligations.AndWritesBitwiseAnd : Prop :=
  AluRule 9#16 .and fun u v out => ∀ k < 16, out.getLsbD k = (u.getLsbD k && v.getLsbD k)

/-- 44_alu.md R100: LST writes 1 if the first operand is less than the second, both unsigned, else 0. -/
def Obligations.LstWritesUnsignedLessThan : Prop :=
  AluRule 10#16 .lst fun u v out => (u.toNat < v.toNat → out = 1#16) ∧ (v.toNat ≤ u.toNat → out = 0#16)

/-- 45_branch.md R102: JNZ jumps to the address in register r2 if register r1 is nonzero, else falls through; it writes no other
register. -/
def Obligations.JnzJumpsIfNonzero : Prop :=
  DecodesAs 11#16 .jnz ∧ FaultsOnFetchFailure 11#16 ∧ FaultsOnBadRegisters .jnz ∧
  (∀ (s : State) (r1 r2 : Reg), ∃ t, exec (.jnz r1.word r2.word) s = .next t ∧
    (s.operand r1 ≠ 0#16 → t.reg .count = s.operand r2) ∧
    (s.operand r1 = 0#16 → t.reg .count = s.reg .count + 3#16) ∧
    KeepsRegsExcept [.count] s t ∧ KeepsMemory s t ∧ KeepsStatusAndConsole s t)

/-- 45_branch.md R103: the four control transfers and their targets, and no other legal instruction but HLT, which does not
advance, leaves `count` at anything but p + 3. -/
def Obligations.ControlTransfersAreTheTables : Prop :=
  (∀ (s : State) (r1 r2 : Reg), s.operand r1 ≠ 0#16 →
    ∃ t, exec (.jnz r1.word r2.word) s = .next t ∧ t.reg .count = s.operand r2) ∧
  (∀ (s : State) (imm : Word), ∃ t, exec (.set Reg.count.word imm) s = .next t ∧ t.reg .count = imm) ∧
  (∀ (s : State) (r : Reg), ∃ t, exec (.cpy r.word Reg.count.word) s = .next t ∧ t.reg .count = s.operand r) ∧
  (∀ (s : State) (r : Reg), ∃ t, exec (.pnt r.word Reg.count.word) s = .next t ∧
    t.reg .count = s.mem.read (s.operand r)) ∧
  (∀ (i : Instr) (s : State), i.wellFormed = true → i ≠ .hlt → ¬ WritesCount i s →
    ∃ t, exec i s = .next t ∧ t.reg .count = s.reg .count + 3#16)

/-- 20_memory.md R41, R56, 10_state.md R13, R27: every instruction, legal or not, has a next state; only SAV changes memory; none
touches the console; and an instruction that changes the run status halts the core and changes nothing else. -/
def Obligations.OnlySavChangesMemory : Prop :=
  ∀ (i : Instr) (s : State), ∃ t, exec i s = .next t ∧ t.console = s.console ∧ (i.opcode ≠ .sav → t.mem = s.mem) ∧
    (t.status = s.status ∨ ∃ c, t.status = .halted c ∧ t.regs = s.regs ∧ t.mem = s.mem)

/-! ### Memory and the bus -/

/-- 20_memory.md R42, R43: a `Load` answers the stored word and changes nothing; a `Store` answers `Ack` and changes the
addressed word alone. -/
def Obligations.ControllerServesOneWord : Prop :=
  (∀ (m : Memory) (a : Word), controllerLoad m a = .data (m.read a) ∧ serve m (.load a) = m) ∧
  (∀ (m : Memory) (a v : Word), (controllerStore m a v).1 = .ack ∧ serve m (.store a v) = (controllerStore m a v).2 ∧
    (serve m (.store a v)).read a = v ∧ ∀ b, b ≠ a → (serve m (.store a v)).read b = m.read b)

/-- 10_state.md R31, 20_memory.md R33: memory is its 65536 words and nothing more: two canonical lists with the same words are
equal (the list is the model's representation, log 4). -/
def Obligations.CanonicalMemoryIsItsContents : Prop :=
  ∀ m n : Memory, m.wf = true → n.wf = true → (∀ a, m.read a = n.read a) → m = n

/-- Every step keeps the memory in its canonical form (the form is the model's, log 4). -/
def Obligations.EveryStepKeepsMemoryCanonical : Prop :=
  ∀ s t : State, s.canonical → step s = .next t → t.canonical

/-- The reset state, and the start state for every value of the spec's parameters and every image, have their memory in its
canonical form (the form is the model's, log 4). -/
def Obligations.StartMemoryIsCanonical : Prop :=
  State.reset.canonical ∧
  ∀ (resetRegs : Reg → Word) (initMem : Word → Word) (image : List Word),
    (State.start resetRegs initMem image).canonical

/-- 40_execute_cycle.md R87, 20_memory.md R53: the bus requests of a running core's cycle, in order, for each case of the
table, the CORE's controller answering. -/
def Obligations.CycleIssuesTheTablesRequests : Prop :=
  ∀ (s : State) (p w0 w1 w2 : Word), s.status = .running → s.reg .count = p → s.mem.read p = w0 →
    s.mem.read (p + 1#16) = w1 → s.mem.read (p + 2#16) = w2 →
    (w0.toNat = 0 ∨ 12 ≤ w0.toNat → cycleRequests s = [.load p]) ∧
    (1 ≤ w0.toNat → w0.toNat ≤ 11 → 7 < w1.toNat ∨ (w0.toNat ≠ 3 ∧ 7 < w2.toNat) →
      cycleRequests s = [.load p, .load (p + 1#16), .load (p + 2#16)]) ∧
    (3 ≤ w0.toNat → w0.toNat ≤ 11 → cycleRequests s = [.load p, .load (p + 1#16), .load (p + 2#16)]) ∧
    (∀ r1 r2 : Reg, w0.toNat = 1 → w1 = r1.word → w2 = r2.word →
      cycleRequests s = [.load p, .load (p + 1#16), .load (p + 2#16), .load (s.operand r1)]) ∧
    (∀ r1 r2 : Reg, w0.toNat = 2 → w1 = r1.word → w2 = r2.word →
      cycleRequests s = [.load p, .load (p + 1#16), .load (p + 2#16), .store (s.operand r2) (s.operand r1)])

/-- 20_memory.md R52 to R54: memory after a step is memory after the requests of its cycle, served in order, and then the tick's
clear of the console flag. -/
def Obligations.MemoryIsServedRequestsThenTick : Prop :=
  ∀ s t : State, step s = .next t → ∀ a : Word,
    t.mem.read a = if a = 8080#16 then 0#16 else (serveAll s.mem (cycleRequests s)).read a

/-- 10_state.md R31, 20_memory.md R47, 40_execute_cycle.md R87: a step looks at no word of memory but those its cycle loads and
the two console words: two states that agree on the rest of the state and on those words take steps that agree on registers,
run status and console, and on every word on which the two memories agreed. -/
def Obligations.StepReadsOnlyItsRequests : Prop :=
  ∀ s t s' : State, t.status = s.status → t.regs = s.regs → t.console = s.console →
    (∀ a : Word, BusRequest.load a ∈ cycleRequests s ∨ a = 8080#16 ∨ a = 8081#16 → t.mem.read a = s.mem.read a) →
    step s = .next s' →
    ∃ t', step t = .next t' ∧ t'.regs = s'.regs ∧ t'.status = s'.status ∧ t'.console = s'.console ∧
      ∀ a : Word, t.mem.read a = s.mem.read a → t'.mem.read a = s'.mem.read a

/-- 20_memory.md R57, R58, R92, R115: a whole cycle of SAV, at any address, its own words included: it completes with its own
effect, the tick of the same cycle sees the store, and the next state, from which the next cycle fetches, holds it. -/
def Obligations.SavCycleStoresThenTicks : Prop :=
  ∀ (s : State) (r1 r2 : Reg) (rest : List Word), s.status = .running →
    decode s.instructionWords = .ok (.sav r1.word r2.word, rest) →
    ∃ t, step s = .next t ∧ t.status = .running ∧ t.reg .count = s.reg .count + 3#16 ∧ KeepsRegsExcept [.count] s t ∧
      (∀ a : Word, a ≠ 8080#16 → t.mem.read a = if a = s.operand r2 then s.operand r1 else s.mem.read a) ∧
      t.mem.read 8080#16 = 0#16 ∧
      t.console = s.console ++
        consoleBytes (if s.operand r2 = 8080#16 then s.operand r1 else s.mem.read 8080#16)
          (if s.operand r2 = 8081#16 then s.operand r1 else s.mem.read 8081#16)

/-! ### The console -/

/-- 60_exceptions.md R115, R116: with flag 0 the tick does nothing; with flag 2 it emits the high and then the low byte of the
data word, with any other flag the low byte; a nonzero flag is then 0; nothing else changes. It runs once after the core's part
of every cycle, whichever way that ended. -/
def Obligations.TickConsumesTheFlag : Prop :=
  (∀ s : State, s.mem.read 8080#16 = 0#16 → tick s = s) ∧
  (∀ s : State, s.mem.read 8080#16 ≠ 0#16 →
    (tick s).mem.read 8080#16 = 0#16 ∧ KeepsMemoryExcept 8080#16 s (tick s) ∧ KeepsRegsExcept [] s (tick s) ∧
    (tick s).status = s.status ∧
    ∃ high low : Byte, high.toNat = (s.mem.read 8081#16).toNat / 256 ∧ low.toNat = (s.mem.read 8081#16).toNat % 256 ∧
      (s.mem.read 8080#16 = 2#16 → (tick s).console = s.console ++ [high, low]) ∧
      (s.mem.read 8080#16 ≠ 2#16 → (tick s).console = s.console ++ [low])) ∧
  (∀ (s u : State) (i : Instr), s.status = .running → fetch s = .instr i → exec i s = .next u →
    step s = .next (tick u)) ∧
  (∀ (s : State) (c : HaltCode), s.status = .running → fetch s = .fault c → step s = .next (tick (raiseFault c s)))

/-- 60_exceptions.md R115, R118: after every cycle the console flag reads 0. -/
def Obligations.ConsoleFlagIsClearAfterEveryCycle : Prop :=
  ∀ s t : State, step s = .next t → t.mem.read 8080#16 = 0#16

/-- 60_exceptions.md R117, 10_state.md R30: along every run the console output stream only grows at its end. -/
def Obligations.ConsoleStreamOnlyGrows : Prop :=
  ∀ s t : State, Reachable s t → ∃ bs, t.console = s.console ++ bs

/-! ### Reset and runs -/

/-- 10_state.md R32, 70_reset_and_hazards.md R125: the state at the start of a run, for every value of the open parameters and
every image, images longer than memory included. -/
def Obligations.StartStateIsTheResetTable : Prop :=
  ∀ (resetRegs : Reg → Word) (initMem : Word → Word) (image : List Word),
    (State.start resetRegs initMem image).reg .count = 0#16 ∧
    (∀ r : Reg, r ≠ .count → (State.start resetRegs initMem image).reg r = resetRegs r) ∧
    (State.start resetRegs initMem image).status = .running ∧
    (State.start resetRegs initMem image).console = [] ∧
    (∀ (i : Nat) (h : i < image.length),
      (∀ j, i < j → j < image.length → j % 65536 ≠ i % 65536) →
      (State.start resetRegs initMem image).mem.read (BitVec.ofNat 16 i) = image[i]) ∧
    (∀ a : Word, (∀ i, i < image.length → i % 65536 ≠ a.toNat) →
      (State.start resetRegs initMem image).mem.read a = initMem a)

/-- The model's `State.reset` is the start state with the open parameters all zero and no image. The zeros are the model's choice
(log 1, log 2), the one that 95_test_vectors.md takes as its instance. -/
def Obligations.ResetIsTheZeroInstance : Prop :=
  State.reset = State.start (fun _ => 0#16) (fun _ => 0#16) []

/-- 70_reset_and_hazards.md R126: a file of 2n or 2n + 1 bytes gives an image of n words, each from two bytes, the most
significant first; an empty file gives an empty image, and then every word of memory is `init_mem`'s. -/
def Obligations.ProgramFileGivesItsImage : Prop :=
  (∀ bs : List Byte, (imageOfFile bs).length = bs.length / 2) ∧
  (∀ (bs : List Byte) (k : Nat) (h : 2 * k + 1 < bs.length),
    ((imageOfFile bs)[k]?).map BitVec.toNat = some (bs[2 * k].toNat * 256 + bs[2 * k + 1].toNat)) ∧
  imageOfFile [] = [] ∧
  (∀ (resetRegs : Reg → Word) (initMem : Word → Word) (a : Word),
    (State.start resetRegs initMem (imageOfFile [])).mem.read a = initMem a)

/-- 70_reset_and_hazards.md R129: the first request of the first cycle is the fetch of the opcode word at address 0. -/
def Obligations.FirstFetchIsAtAddressZero : Prop :=
  ∀ (resetRegs : Reg → Word) (initMem : Word → Word) (image : List Word),
    (cycleRequests (State.start resetRegs initMem image)).head? = some (.load 0#16)

/-- 30_encoding.md R67, 60_exceptions.md R107: a run from a state that has not faulted is safe exactly when every instruction
that it comes to is legal. -/
def Obligations.RunIsSafeExactlyWhenLegal : Prop :=
  ∀ s : State, ¬ s.faulted →
    (SafeFrom s ↔ ∀ t, Reachable s t → t.status = .running → t.legalNext)
end

