-- ==== Sys2Proof/Laws/Memory.lean ====
section
/-! SUPPORT. The laws of memory: read after write, in any list of cells, and every operation keeps the canonical form. -/

namespace Sys2Proof.Machine

@[simp] theorem Memory.lookup_nil (n : Nat) : Memory.lookup [] n = Config.unlistedWord := rfl

theorem Memory.lookup_cons (k : Nat) (w : Word) (m : Memory) (n : Nat) :
    Memory.lookup ((k, w) :: m) n = if k = n then w else Memory.lookup m n := rfl

theorem Memory.lookup_erase (m : Memory) (k n : Nat) :
    Memory.lookup (m.erase k) n = if n = k then Config.unlistedWord else Memory.lookup m n := by
  induction m with
  | nil => simp [Memory.erase]
  | cons c m ih =>
    obtain ⟨j, w⟩ := c
    by_cases hj : j = k
    · subst hj
      by_cases hn : n = j
      · subst hn
        simpa [Memory.erase] using ih
      · simp [Memory.erase, ih, hn, Memory.lookup_cons, Ne.symm hn]
    · by_cases hn : n = k
      · subst hn
        simp [Memory.erase, hj, Memory.lookup_cons, ih]
      · simp [Memory.erase, hj, Memory.lookup_cons, ih, hn]

/-- A cell put into a list that has none at its address is the one found there, and no other address notices. -/
theorem Memory.lookup_insert (m : Memory) (k n : Nat) (v : Word) (h : ∀ c ∈ m, c.1 ≠ k) :
    Memory.lookup (Memory.insert m k v) n = if n = k then v else Memory.lookup m n := by
  induction m with
  | nil =>
    by_cases hn : n = k
    · simp [Memory.insert, Memory.lookup_cons, hn]
    · simp [Memory.insert, Memory.lookup_cons, hn, Ne.symm hn]
  | cons c m ih =>
    obtain ⟨j, w⟩ := c
    have hj : j ≠ k := h (j, w) (by simp)
    have ih := ih fun c hc => h c (by simp [hc])
    by_cases hn : n = k
    · subst hn
      by_cases hlt : n < j <;> simp [Memory.insert, hlt, Memory.lookup_cons, ih, hj]
    · by_cases hlt : k < j <;> simp [Memory.insert, hlt, Memory.lookup_cons, ih, hn, Ne.symm hn]

theorem Memory.ne_of_mem_erase {m : Memory} {k : Nat} {c : Cell} (h : c ∈ m.erase k) : c.1 ≠ k := by
  induction m with
  | nil => simp [Memory.erase] at h
  | cons d m ih =>
    obtain ⟨j, w⟩ := d
    by_cases hj : j = k
    · simp only [Memory.erase, if_pos hj] at h
      exact ih h
    · simp only [Memory.erase, if_neg hj, List.mem_cons] at h
      rcases h with rfl | h
      · exact hj
      · exact ih h

/-- R43, R52: a read after a write gives the value written, and every other address reads as before. -/
theorem Memory.read_write (m : Memory) (a b v : Word) : (m.write a v).read b = if b = a then v else m.read b := by
  have hiff : b.toNat = a.toNat ↔ b = a := BitVec.toNat_inj
  unfold Memory.write Memory.read
  split
  · rename_i hv
    subst hv
    simp [Memory.lookup_erase, hiff]
  · by_cases hb : b = a
    · simp [Memory.lookup_insert _ _ _ _ fun c hc => Memory.ne_of_mem_erase hc, hb]
    · simp [Memory.lookup_insert _ _ _ _ fun c hc => Memory.ne_of_mem_erase hc, Memory.lookup_erase, hb, hiff]

@[simp] theorem Memory.read_write_self (m : Memory) (a v : Word) : (m.write a v).read a = v := by
  simp [Memory.read_write]

theorem Memory.read_write_of_ne {a b : Word} (h : b ≠ a) (m : Memory) (v : Word) : (m.write a v).read b = m.read b := by
  simp [Memory.read_write, h]

@[simp] theorem Memory.read_nil (a : Word) : Memory.read [] a = Config.unlistedWord := rfl

/-! ### The canonical form -/

theorem Memory.wfFrom_cons {lo k : Nat} {w : Word} {m : Memory} :
    Memory.wfFrom lo ((k, w) :: m) = true ↔
      lo ≤ k ∧ k < Config.memorySize ∧ w ≠ Config.unlistedWord ∧ Memory.wfFrom (k + 1) m = true := by
  simp [Memory.wfFrom, and_assoc]

theorem Memory.wfFrom_mono {lo lo' : Nat} {m : Memory} (hle : lo ≤ lo') (h : m.wfFrom lo' = true) :
    m.wfFrom lo = true := by
  cases m with
  | nil => rfl
  | cons c m =>
    obtain ⟨k, w⟩ := c
    rw [Memory.wfFrom_cons] at h ⊢
    exact ⟨by omega, h.2⟩

theorem Memory.wfFrom_erase {m : Memory} {lo : Nat} (k : Nat) (h : m.wfFrom lo = true) :
    (m.erase k).wfFrom lo = true := by
  induction m generalizing lo with
  | nil => rfl
  | cons c m ih =>
    obtain ⟨j, w⟩ := c
    rw [Memory.wfFrom_cons] at h
    by_cases hj : j = k
    · simp only [Memory.erase, if_pos hj]
      exact Memory.wfFrom_mono (by omega) (ih h.2.2.2)
    · simp only [Memory.erase, if_neg hj]
      exact Memory.wfFrom_cons.2 ⟨h.1, h.2.1, h.2.2.1, ih h.2.2.2⟩

theorem Memory.wfFrom_insert {m : Memory} {lo k : Nat} {v : Word} (h : m.wfFrom lo = true) (hlo : lo ≤ k)
    (hk : k < Config.memorySize) (hv : v ≠ Config.unlistedWord) (hne : ∀ c ∈ m, c.1 ≠ k) :
    (Memory.insert m k v).wfFrom lo = true := by
  induction m generalizing lo with
  | nil => exact Memory.wfFrom_cons.2 ⟨hlo, hk, hv, rfl⟩
  | cons c m ih =>
    obtain ⟨j, w⟩ := c
    have hj : j ≠ k := hne (j, w) (by simp)
    rw [Memory.wfFrom_cons] at h
    by_cases hlt : k < j
    · simp only [Memory.insert, if_pos hlt]
      exact Memory.wfFrom_cons.2 ⟨hlo, hk, hv, Memory.wfFrom_cons.2 ⟨by omega, h.2⟩⟩
    · simp only [Memory.insert, if_neg hlt]
      exact Memory.wfFrom_cons.2
        ⟨h.1, h.2.1, h.2.2.1, ih h.2.2.2 (by omega) fun c hc => hne c (by simp [hc])⟩

/-- A write keeps the canonical form. -/
theorem Memory.wf_write {m : Memory} (a v : Word) (h : m.wf = true) : (m.write a v).wf = true := by
  unfold Memory.write Memory.wf
  split
  · exact Memory.wfFrom_erase _ h
  · rename_i hv
    exact Memory.wfFrom_insert (Memory.wfFrom_erase _ h) (Nat.zero_le _) a.isLt hv fun c hc => Memory.ne_of_mem_erase hc

/-- Loading an image keeps the canonical form. -/
theorem Memory.wf_load {m : Memory} (a : Word) (ws : List Word) (h : m.wf = true) : (m.load a ws).wf = true := by
  induction ws generalizing m a with
  | nil => exact h
  | cons w ws ih => exact ih _ (Memory.wf_write _ _ h)

theorem Memory.wfFrom_build {f : Word → Word} {n : Nat} {m : Memory} (hn : n ≤ Config.memorySize)
    (h : m.wfFrom n = true) : (Memory.build f n m).wf = true := by
  induction n generalizing m with
  | zero => exact h
  | succ n ih =>
    refine ih (by omega) ?_
    split
    · exact Memory.wfFrom_mono (by omega) h
    · rename_i hv
      exact Memory.wfFrom_cons.2 ⟨le_refl _, by omega, hv, h⟩

/-- The memory made of a function is canonical. -/
theorem Memory.wf_ofFn (f : Word → Word) : (Memory.ofFn f).wf = true := Memory.wfFrom_build (le_refl _) rfl

theorem Memory.lookup_of_wfFrom_lt {m : Memory} {lo n : Nat} (h : m.wfFrom lo = true) (hn : n < lo) :
    m.lookup n = Config.unlistedWord := by
  induction m generalizing lo with
  | nil => rfl
  | cons c m ih =>
    obtain ⟨k, w⟩ := c
    rw [Memory.wfFrom_cons] at h
    rw [Memory.lookup_cons, if_neg (by omega)]
    exact ih h.2.2.2 (by omega)

theorem Memory.lookup_build {f : Word → Word} {n : Nat} {m : Memory} (hn : n ≤ Config.memorySize)
    (h : m.wfFrom n = true) (k : Nat) :
    (Memory.build f n m).lookup k = if k < n then f (BitVec.ofNat 16 k) else m.lookup k := by
  induction n generalizing m with
  | zero => simp [Memory.build]
  | succ n ih =>
    have hm : (if f (BitVec.ofNat 16 n) = Config.unlistedWord then m
        else (n, f (BitVec.ofNat 16 n)) :: m).wfFrom n = true := by
      split
      · exact Memory.wfFrom_mono (by omega) h
      · rename_i hv
        exact Memory.wfFrom_cons.2 ⟨le_refl _, by omega, hv, h⟩
    rw [Memory.build, ih (by omega) hm]
    rcases Nat.lt_trichotomy k n with hk | rfl | hk
    · simp [hk, Nat.lt_succ_of_lt hk]
    · simp only [Nat.lt_irrefl, if_false, Nat.lt_succ_self, if_true]
      split
      · rename_i hv
        rw [Memory.lookup_of_wfFrom_lt h (Nat.lt_succ_self k), hv]
      · simp [Memory.lookup_cons]
    · simp only [Nat.not_lt_of_lt hk, Nat.not_lt.2 (Nat.succ_le_of_lt hk), if_false]
      split
      · rfl
      · rw [Memory.lookup_cons, if_neg (Nat.ne_of_lt hk)]

/-- D6: the memory made of a function reads as the function. -/
@[simp] theorem Memory.read_ofFn (f : Word → Word) (a : Word) : (Memory.ofFn f).read a = f a := by
  have h : a.toNat < Config.memorySize := a.isLt
  simp [Memory.read, Memory.ofFn, Memory.lookup_build (le_refl _) (show Memory.wfFrom _ [] = true from rfl), h]

/-- The memory of the reset state is canonical. -/
theorem Memory.wf_reset : State.reset.mem.wf = true := rfl

end Sys2Proof.Machine
end

