-- ==== Sys2Proof/Laws/State.lean ====
section
/-! SUPPORT. One lemma per field and update of the state, and the laws of reading and writing registers. -/

namespace Sys2Proof.Machine

theorem RegFile.get_set (x : RegFile) (r q : Reg) (v : Word) : (x.set r v).get q = if q = r then v else x.get q := by
  cases r <;> cases q <;> rfl

/-- Two register files with equal cells are equal. -/
theorem RegFile.ext_get {x y : RegFile} (h : ∀ r, x.get r = y.get r) : x = y := by
  obtain ⟨_, _, _, _, _, _, _, _⟩ := x
  obtain ⟨_, _, _, _, _, _, _, _⟩ := y
  have := h .out; have := h .count; have := h .a; have := h .b
  have := h .c; have := h .d; have := h .e; have := h .f
  simp_all [RegFile.get]

theorem State.reg_setReg (s : State) (r q : Reg) (v : Word) : (s.setReg r v).reg q = if q = r then v else s.reg q :=
  RegFile.get_set s.regs r q v

@[simp] theorem State.reg_setReg_self (s : State) (r : Reg) (v : Word) : (s.setReg r v).reg r = v := by
  simp [State.reg_setReg]

theorem State.reg_setReg_of_ne {r q : Reg} (h : q ≠ r) (s : State) (v : Word) : (s.setReg r v).reg q = s.reg q := by
  simp [State.reg_setReg, h]

@[simp] theorem State.status_setReg (s : State) (r : Reg) (v : Word) : (s.setReg r v).status = s.status := rfl
@[simp] theorem State.mem_setReg (s : State) (r : Reg) (v : Word) : (s.setReg r v).mem = s.mem := rfl
@[simp] theorem State.console_setReg (s : State) (r : Reg) (v : Word) : (s.setReg r v).console = s.console := rfl

@[simp] theorem State.regs_setMem (s : State) (m : Memory) : (s.setMem m).regs = s.regs := rfl
@[simp] theorem State.reg_setMem (s : State) (m : Memory) (r : Reg) : (s.setMem m).reg r = s.reg r := rfl
@[simp] theorem State.status_setMem (s : State) (m : Memory) : (s.setMem m).status = s.status := rfl
@[simp] theorem State.mem_setMem (s : State) (m : Memory) : (s.setMem m).mem = m := rfl
@[simp] theorem State.console_setMem (s : State) (m : Memory) : (s.setMem m).console = s.console := rfl

@[simp] theorem State.regs_setStatus (s : State) (st : RunStatus) : (s.setStatus st).regs = s.regs := rfl
@[simp] theorem State.reg_setStatus (s : State) (st : RunStatus) (r : Reg) : (s.setStatus st).reg r = s.reg r := rfl
@[simp] theorem State.status_setStatus (s : State) (st : RunStatus) : (s.setStatus st).status = st := rfl
@[simp] theorem State.mem_setStatus (s : State) (st : RunStatus) : (s.setStatus st).mem = s.mem := rfl
@[simp] theorem State.console_setStatus (s : State) (st : RunStatus) : (s.setStatus st).console = s.console := rfl

@[simp] theorem State.regs_emit (s : State) (bs : List Byte) : (s.emit bs).regs = s.regs := rfl
@[simp] theorem State.reg_emit (s : State) (bs : List Byte) (r : Reg) : (s.emit bs).reg r = s.reg r := rfl
@[simp] theorem State.status_emit (s : State) (bs : List Byte) : (s.emit bs).status = s.status := rfl
@[simp] theorem State.mem_emit (s : State) (bs : List Byte) : (s.emit bs).mem = s.mem := rfl
@[simp] theorem State.console_emit (s : State) (bs : List Byte) : (s.emit bs).console = s.console ++ bs := rfl

@[simp] theorem State.regs_halt (s : State) (c : HaltCode) : (s.halt c).regs = s.regs := rfl
@[simp] theorem State.reg_halt (s : State) (c : HaltCode) (r : Reg) : (s.halt c).reg r = s.reg r := rfl
@[simp] theorem State.status_halt (s : State) (c : HaltCode) : (s.halt c).status = .halted c := rfl
@[simp] theorem State.mem_halt (s : State) (c : HaltCode) : (s.halt c).mem = s.mem := rfl
@[simp] theorem State.console_halt (s : State) (c : HaltCode) : (s.halt c).console = s.console := rfl

@[simp] theorem regs_raiseFault (c : HaltCode) (s : State) : (raiseFault c s).regs = s.regs := rfl
@[simp] theorem reg_raiseFault (c : HaltCode) (s : State) (r : Reg) : (raiseFault c s).reg r = s.reg r := rfl
@[simp] theorem status_raiseFault (c : HaltCode) (s : State) : (raiseFault c s).status = .halted c := rfl
@[simp] theorem mem_raiseFault (c : HaltCode) (s : State) : (raiseFault c s).mem = s.mem := rfl
@[simp] theorem console_raiseFault (c : HaltCode) (s : State) : (raiseFault c s).console = s.console := rfl

@[simp] theorem State.status_advance (s : State) : s.advance.status = s.status := rfl
@[simp] theorem State.mem_advance (s : State) : s.advance.mem = s.mem := rfl
@[simp] theorem State.console_advance (s : State) : s.advance.console = s.console := rfl
@[simp] theorem State.count_advance (s : State) : s.advance.reg .count = s.reg .count + 3#16 := rfl

/-- R82: the working copy differs from the state in `count` alone. -/
theorem State.reg_advance (s : State) (r : Reg) : s.advance.reg r = if r = .count then s.reg .count + 3#16 else s.reg r :=
  State.reg_setReg s .count r _

theorem State.reg_advance_of_ne {r : Reg} (h : r ≠ .count) (s : State) : s.advance.reg r = s.reg r := by
  simp [State.reg_advance, h]

@[simp] theorem State.count_start (rs : Reg → Word) (f : Word → Word) (img : List Word) :
    (State.start rs f img).reg .count = Config.entryPoint := rfl

theorem State.reg_start {r : Reg} (h : r ≠ .count) (rs : Reg → Word) (f : Word → Word) (img : List Word) :
    (State.start rs f img).reg r = rs r := by
  cases r <;> first | rfl | exact absurd rfl h

@[simp] theorem State.status_start (rs : Reg → Word) (f : Word → Word) (img : List Word) :
    (State.start rs f img).status = .running := rfl
@[simp] theorem State.mem_start (rs : Reg → Word) (f : Word → Word) (img : List Word) :
    (State.start rs f img).mem = Memory.load (Memory.ofFn f) Config.loadOffset img := rfl
@[simp] theorem State.console_start (rs : Reg → Word) (f : Word → Word) (img : List Word) :
    (State.start rs f img).console = [] := rfl

end Sys2Proof.Machine
end

