-- ==== Sys2Proof/Laws/Bus.lean ====
section
/-! SUPPORT. The laws of bus requests: what the core does with each answer, and what the CORE's controller answers. -/

namespace Sys2Proof.Machine

/-- All that `BusLoad` can do. -/
theorem busLoad_cases (per : Peripheral) (s : State) (a : Word) (body : Word → State) :
    (∃ v, per.load s.mem a = .data v ∧ busLoad per s a body = body v) ∨
    (∃ c, per.load s.mem a = .fail c ∧ busLoad per s a body = raiseFault .busFailure s) := by
  unfold busLoad
  cases h : per.load s.mem a with
  | data v => exact .inl ⟨v, rfl, rfl⟩
  | fail c => exact .inr ⟨c, rfl, rfl⟩

/-- All that `BusStore` can do. -/
theorem busStore_cases (per : Peripheral) (s : State) (a v : Word) (body : Memory → State) :
    (∃ m, per.store s.mem a v = (.ack, m) ∧ busStore per s a v body = body m) ∨
    (∃ c m, per.store s.mem a v = (.fail c, m) ∧ busStore per s a v body = raiseFault .busFailure s) := by
  unfold busStore
  rcases h : per.store s.mem a v with ⟨_ | c, m⟩
  · exact .inl ⟨m, rfl, rfl⟩
  · exact .inr ⟨c, m, rfl, rfl⟩

@[simp] theorem memoryController_load (m : Memory) (a : Word) : memoryController.load m a = .data (m.read a) := rfl

@[simp] theorem memoryController_store (m : Memory) (a v : Word) :
    memoryController.store m a v = (.ack, m.write a v) := rfl

/-- R42: the core's load of a word from the CORE's memory. -/
@[simp] theorem busLoad_memoryController (s : State) (a : Word) (body : Word → State) :
    busLoad memoryController s a body = body (s.mem.read a) := rfl

/-- R43: the core's store of a word to the CORE's memory. -/
@[simp] theorem busStore_memoryController (s : State) (a v : Word) (body : Memory → State) :
    busStore memoryController s a v body = body (s.mem.write a v) := rfl

@[simp] theorem serve_load (m : Memory) (a : Word) : serve m (.load a) = m := rfl
@[simp] theorem serve_store (m : Memory) (a v : Word) : serve m (.store a v) = m.write a v := rfl
@[simp] theorem serveAll_nil (m : Memory) : serveAll m [] = m := rfl
@[simp] theorem serveAll_cons (m : Memory) (q : BusRequest) (qs : List BusRequest) :
    serveAll m (q :: qs) = serveAll (serve m q) qs := rfl

/-- Serving requests keeps the canonical form. -/
theorem wf_serveAll {m : Memory} (qs : List BusRequest) (h : m.wf = true) : (serveAll m qs).wf = true := by
  induction qs generalizing m with
  | nil => exact h
  | cons q qs ih =>
    cases q with
    | load a => exact ih h
    | store a v => exact ih (Memory.wf_write a v h)

end Sys2Proof.Machine
end

