-- ==== Sys2Proof/Laws/Console.lean ====
section
/-! SUPPORT. The laws of the console tick. -/

namespace Sys2Proof.Machine

/-- All that a tick can do. -/
theorem tick_cases (s : State) :
    (s.mem.read 8080#16 = 0#16 ∧ tick s = s) ∨
    (s.mem.read 8080#16 ≠ 0#16 ∧
      tick s = (s.emit (consoleBytes (s.mem.read 8080#16) (s.mem.read 8081#16))).setMem
        (s.mem.write 8080#16 0#16)) := by
  unfold tick Config.consoleFlag Config.consoleData
  split
  · exact .inl ⟨‹_›, rfl⟩
  · exact .inr ⟨‹_›, rfl⟩

@[simp] theorem regs_tick (s : State) : (tick s).regs = s.regs := by
  rcases tick_cases s with ⟨-, h⟩ | ⟨-, h⟩ <;> (rw [h]; try rfl)

@[simp] theorem reg_tick (s : State) (r : Reg) : (tick s).reg r = s.reg r := by
  simp [State.reg]

@[simp] theorem status_tick (s : State) : (tick s).status = s.status := by
  rcases tick_cases s with ⟨-, h⟩ | ⟨-, h⟩ <;> (rw [h]; try rfl)

/-- What a tick appends. -/
theorem console_tick (s : State) :
    (tick s).console = s.console ++ consoleBytes (s.mem.read 8080#16) (s.mem.read 8081#16) := by
  rcases tick_cases s with ⟨h0, h⟩ | ⟨-, h⟩ <;> rw [h]
  · simp [consoleBytes, h0]
  · rfl

/-- What a tick leaves in memory: the flag cleared, all else as it was. -/
theorem read_tick (s : State) (a : Word) :
    (tick s).mem.read a = if a = 8080#16 then 0#16 else s.mem.read a := by
  rcases tick_cases s with ⟨h0, h⟩ | ⟨-, h⟩ <;> rw [h]
  · split
    · rename_i ha
      rw [ha, h0]
    · rfl
  · simp [Memory.read_write]

/-- A tick keeps the canonical form. -/
theorem wf_tick {s : State} (h : s.mem.wf = true) : (tick s).mem.wf = true := by
  rcases tick_cases s with ⟨-, e⟩ | ⟨-, e⟩ <;> rw [e]
  · exact h
  · exact Memory.wf_write 8080#16 0#16 h

end Sys2Proof.Machine
end

