-- ==== Sys2Proof/Laws/Decode.lean ====
section
/-! SUPPORT. The laws of opcodes and their words (R63, R66). -/

namespace Sys2Proof

@[simp] theorem Opcode.ofWord_word (op : Opcode) : Opcode.ofWord op.word = some op := by cases op <;> rfl

theorem Opcode.word_lt (op : Opcode) : op.word.toNat < 12 := by cases op <;> decide

/-- A word that is an opcode is that opcode's word. -/
theorem Opcode.ofWord_eq_some {w : Word} {op : Opcode} (h : Opcode.ofWord w = some op) : w = op.word := by
  unfold Opcode.ofWord at h
  split at h <;> first
    | (cases h; apply BitVec.eq_of_toNat_eq; assumption)
    | cases h

/-- R67: a word is no opcode exactly when it is 12 or more. -/
theorem Opcode.ofWord_eq_none_iff {w : Word} : Opcode.ofWord w = none ↔ 12 ≤ w.toNat := by
  constructor
  · intro h
    unfold Opcode.ofWord at h
    generalize w.toNat = n at h ⊢
    by_contra hn
    interval_cases n <;> cases h
  · intro h
    cases hr : Opcode.ofWord w with
    | none => rfl
    | some op =>
      have := Opcode.word_lt op
      rw [← Opcode.ofWord_eq_some hr] at this
      omega

@[simp] theorem Opcode.opcode_build (op : Opcode) (w1 w2 : Word) : (op.build w1 w2).opcode = op := by cases op <;> rfl

/-- The decoding of three words whose first is an opcode with operands. -/
theorem decode_operands {w0 : Word} {op : Opcode} (h : Opcode.ofWord w0 = some op) (hop : op ≠ .hlt)
    (w1 w2 : Word) (rest : List Word) : decode (w0 :: w1 :: w2 :: rest) = .ok (op.build w1 w2, rest) := by
  cases op <;> first | exact absurd rfl hop | simp only [decode, h]

/-- The decoding of a word that is no opcode. -/
theorem decode_unrecognized {w0 : Word} (h : Opcode.ofWord w0 = none) (ws : List Word) :
    decode (w0 :: ws) = .error (.unrecognizedOpcode w0) := by
  simp only [decode, h]

end Sys2Proof
end

