-- ==== Sys2Proof/Laws/Operands.lean ====
section
/-! SUPPORT. The laws of register operand words and of the register-index check (R64, R81). -/

namespace Sys2Proof

@[simp] theorem Reg.ofWord_word (r : Reg) : Reg.ofWord r.word = some r := by cases r <;> rfl

theorem Reg.word_le (r : Reg) : r.word.toNat ≤ 7 := by cases r <;> decide

theorem Reg.word_injective {r q : Reg} (h : r.word = q.word) : r = q := by
  have := congrArg Reg.ofWord h
  simpa using this

/-- An operand word that names a register is that register's word. -/
theorem Reg.ofWord_eq_some {w : Word} {r : Reg} (h : Reg.ofWord w = some r) : w = r.word := by
  unfold Reg.ofWord at h
  split at h <;> first
    | (cases h; apply BitVec.eq_of_toNat_eq; assumption)
    | cases h

/-- R64: an operand word names no register exactly when it is above 7. -/
theorem Reg.ofWord_eq_none_iff {w : Word} : Reg.ofWord w = none ↔ 7 < w.toNat := by
  constructor
  · intro h
    unfold Reg.ofWord at h
    generalize w.toNat = n at h ⊢
    by_contra hn
    interval_cases n <;> cases h
  · intro h
    cases hr : Reg.ofWord w with
    | none => rfl
    | some r =>
      have := Reg.word_le r
      rw [← Reg.ofWord_eq_some hr] at this
      omega

/-- R64: an operand word of at most 7 is the word of a register. -/
theorem Reg.exists_word {w : Word} (h : w.toNat ≤ 7) : ∃ r : Reg, w = r.word := by
  cases hr : Reg.ofWord w with
  | none => exact absurd (Reg.ofWord_eq_none_iff.1 hr) (by omega)
  | some r => exact ⟨r, Reg.ofWord_eq_some hr⟩

theorem isRegisterOperand_iff {w : Word} : isRegisterOperand w = true ↔ ∃ r : Reg, w = r.word := by
  constructor
  · intro h
    exact Reg.exists_word (of_decide_eq_true h)
  · rintro ⟨r, rfl⟩
    exact decide_eq_true (Reg.word_le r)

theorem isRegisterOperand_eq_false_iff {w : Word} : isRegisterOperand w = false ↔ 7 < w.toNat := by
  simp [isRegisterOperand]

end Sys2Proof

namespace Sys2Proof.Machine

@[simp] theorem withReg_word (r : Reg) (s : State) (body : Reg → State) : withReg r.word s body = body r := by
  simp [withReg]

theorem withReg_bad {w : Word} (h : 7 < w.toNat) (s : State) (body : Reg → State) :
    withReg w s body = raiseFault .registerOutOfRange s := by
  simp [withReg, Reg.ofWord_eq_none_iff.2 h]

/-- All that the check of one register operand can do. -/
theorem withReg_cases (w : Word) (s : State) (body : Reg → State) :
    (7 < w.toNat ∧ withReg w s body = raiseFault .registerOutOfRange s) ∨
    ∃ r : Reg, w = r.word ∧ withReg w s body = body r := by
  by_cases h : 7 < w.toNat
  · exact .inl ⟨h, withReg_bad h s body⟩
  · obtain ⟨r, rfl⟩ := Reg.exists_word (Nat.le_of_not_lt h)
    exact .inr ⟨r, rfl, withReg_word r s body⟩

@[simp] theorem withRegs_word (r1 r2 : Reg) (s : State) (body : Reg → Reg → State) :
    withRegs r1.word r2.word s body = body r1 r2 := by
  simp [withRegs]

theorem withRegs_bad {w1 w2 : Word} (h : 7 < w1.toNat ∨ 7 < w2.toNat) (s : State) (body : Reg → Reg → State) :
    withRegs w1 w2 s body = raiseFault .registerOutOfRange s := by
  unfold withRegs
  rcases withReg_cases w1 s fun r1 => withReg w2 s fun r2 => body r1 r2 with ⟨-, e⟩ | ⟨r1, rfl, e⟩
  · exact e
  · rw [e]
    exact withReg_bad (h.resolve_left (Nat.not_lt.2 (Reg.word_le r1))) s _

/-- All that the check of two register operands can do. -/
theorem withRegs_cases (w1 w2 : Word) (s : State) (body : Reg → Reg → State) :
    ((7 < w1.toNat ∨ 7 < w2.toNat) ∧ withRegs w1 w2 s body = raiseFault .registerOutOfRange s) ∨
    ∃ r1 r2 : Reg, w1 = r1.word ∧ w2 = r2.word ∧ withRegs w1 w2 s body = body r1 r2 := by
  by_cases h : 7 < w1.toNat ∨ 7 < w2.toNat
  · exact .inl ⟨h, withRegs_bad h s body⟩
  · obtain ⟨r1, rfl⟩ := Reg.exists_word (w := w1) (by omega)
    obtain ⟨r2, rfl⟩ := Reg.exists_word (w := w2) (by omega)
    exact .inr ⟨r1, r2, rfl, rfl, withRegs_word r1 r2 s body⟩

end Sys2Proof.Machine
end

