-- ==== Sys2Proof/Laws/Exec.lean ====
section
/-! SUPPORT. The laws of the shared operations behind the meanings. -/

namespace Sys2Proof.Machine

/-- All that PNT can do against any peripheral. -/
theorem pntOn_cases (per : Peripheral) (w1 w2 : Word) (s : State) :
    ((7 < w1.toNat ∨ 7 < w2.toNat) ∧ pntOn per w1 w2 s = raiseFault .registerOutOfRange s) ∨
    ∃ r1 r2 : Reg, w1 = r1.word ∧ w2 = r2.word ∧
      ((∃ v, per.load s.mem (s.advance.reg r1) = .data v ∧ pntOn per w1 w2 s = s.advance.setReg r2 v) ∨
       (∃ c, per.load s.mem (s.advance.reg r1) = .fail c ∧ pntOn per w1 w2 s = raiseFault .busFailure s)) := by
  unfold pntOn
  rcases withRegs_cases w1 w2 s fun r1 r2 =>
    busLoad per s (s.advance.reg r1) fun v => s.advance.setReg r2 v with h | ⟨r1, r2, h1, h2, e⟩
  · exact .inl h
  · rw [e]
    exact .inr ⟨r1, r2, h1, h2, busLoad_cases per s _ _⟩

/-- All that SAV can do against any peripheral. -/
theorem savOn_cases (per : Peripheral) (w1 w2 : Word) (s : State) :
    ((7 < w1.toNat ∨ 7 < w2.toNat) ∧ savOn per w1 w2 s = raiseFault .registerOutOfRange s) ∨
    ∃ r1 r2 : Reg, w1 = r1.word ∧ w2 = r2.word ∧
      ((∃ m, per.store s.mem (s.advance.reg r2) (s.advance.reg r1) = (.ack, m) ∧
          savOn per w1 w2 s = s.advance.setMem m) ∨
       (∃ c m, per.store s.mem (s.advance.reg r2) (s.advance.reg r1) = (.fail c, m) ∧
          savOn per w1 w2 s = raiseFault .busFailure s)) := by
  unfold savOn
  rcases withRegs_cases w1 w2 s fun r1 r2 =>
    busStore per s (s.advance.reg r2) (s.advance.reg r1) fun m => s.advance.setMem m with h | ⟨r1, r2, h1, h2, e⟩
  · exact .inl h
  · rw [e]
    exact .inr ⟨r1, r2, h1, h2, busStore_cases per s _ _ _⟩

/-- All that an ALU instruction can do. -/
theorem aluOp_cases (f : Word → Word → Word) (w1 w2 : Word) (s : State) :
    ((7 < w1.toNat ∨ 7 < w2.toNat) ∧ aluOp f w1 w2 s = raiseFault .registerOutOfRange s) ∨
    ∃ r1 r2 : Reg, w1 = r1.word ∧ w2 = r2.word ∧
      aluOp f w1 w2 s = s.advance.setReg .out (f (s.advance.reg r1) (s.advance.reg r2)) :=
  withRegs_cases w1 w2 s _

/-- The state that each instruction leaves when its operands are legal. -/
inductive Effect (s : State) : Instr → State → Prop where
  | hlt : Effect s .hlt (s.halt .normal)
  | pnt (r1 r2 : Reg) : Effect s (.pnt r1.word r2.word) (s.advance.setReg r2 (s.mem.read (s.advance.reg r1)))
  | sav (r1 r2 : Reg) :
      Effect s (.sav r1.word r2.word) (s.advance.setMem (s.mem.write (s.advance.reg r2) (s.advance.reg r1)))
  | set (r1 : Reg) (imm : Word) : Effect s (.set r1.word imm) (s.advance.setReg r1 imm)
  | cpy (r1 r2 : Reg) : Effect s (.cpy r1.word r2.word) (s.advance.setReg r2 (s.advance.reg r1))
  | add (r1 r2 : Reg) :
      Effect s (.add r1.word r2.word) (s.advance.setReg .out (aluAdd (s.advance.reg r1) (s.advance.reg r2)))
  | sub (r1 r2 : Reg) :
      Effect s (.sub r1.word r2.word) (s.advance.setReg .out (aluSub (s.advance.reg r1) (s.advance.reg r2)))
  | xor (r1 r2 : Reg) :
      Effect s (.xor r1.word r2.word) (s.advance.setReg .out (aluXor (s.advance.reg r1) (s.advance.reg r2)))
  | nor (r1 r2 : Reg) :
      Effect s (.nor r1.word r2.word) (s.advance.setReg .out (aluNor (s.advance.reg r1) (s.advance.reg r2)))
  | and (r1 r2 : Reg) :
      Effect s (.and r1.word r2.word) (s.advance.setReg .out (aluAnd (s.advance.reg r1) (s.advance.reg r2)))
  | lst (r1 r2 : Reg) :
      Effect s (.lst r1.word r2.word) (s.advance.setReg .out (lessThan (s.advance.reg r1) (s.advance.reg r2)))
  | jump (r1 r2 : Reg) : s.advance.reg r1 ≠ 0#16 →
      Effect s (.jnz r1.word r2.word) (s.advance.setReg .count (s.advance.reg r2))
  | fallThrough (r1 r2 : Reg) : s.advance.reg r1 = 0#16 → Effect s (.jnz r1.word r2.word) s.advance

/-- What there is to say of an instruction once its register check is passed or failed. -/
theorem exec_cases_of_withRegs {i : Instr} {s : State} {w1 w2 : Word} {body : Reg → Reg → State}
    (hexec : exec i s = .next (withRegs w1 w2 s body))
    (hwf : i.wellFormed = (isRegisterOperand w1 && isRegisterOperand w2))
    (heff : ∀ r1 r2 : Reg, w1 = r1.word → w2 = r2.word → Effect s i (body r1 r2)) :
    (i.wellFormed = false ∧ exec i s = .next (raiseFault .registerOutOfRange s)) ∨
    (i.wellFormed = true ∧ ∃ t, exec i s = .next t ∧ Effect s i t) := by
  rcases withRegs_cases w1 w2 s body with ⟨h, e⟩ | ⟨r1, r2, h1, h2, e⟩
  · refine .inl ⟨?_, hexec.trans (by rw [e])⟩
    rcases h with h | h <;> simp [hwf, isRegisterOperand_eq_false_iff.2 h]
  · refine .inr ⟨?_, _, hexec.trans (by rw [e]), heff r1 r2 h1 h2⟩
    simp [hwf, isRegisterOperand_iff.2 ⟨r1, h1⟩, isRegisterOperand_iff.2 ⟨r2, h2⟩]

/-- All that an instruction can do: it always answers a next state, which is fault 2 if a register operand is out of range and
otherwise the one of `Effect`. -/
theorem exec_cases (i : Instr) (s : State) :
    (i.wellFormed = false ∧ exec i s = .next (raiseFault .registerOutOfRange s)) ∨
    (i.wellFormed = true ∧ ∃ t, exec i s = .next t ∧ Effect s i t) := by
  cases i with
  | hlt => exact .inr ⟨rfl, _, rfl, .hlt⟩
  | set w1 imm =>
    rcases withReg_cases w1 s fun r1 => s.advance.setReg r1 imm with ⟨h, e⟩ | ⟨r1, rfl, e⟩
    · exact .inl ⟨isRegisterOperand_eq_false_iff.2 h, by rw [← e]; rfl⟩
    · exact .inr ⟨isRegisterOperand_iff.2 ⟨r1, rfl⟩, _, by rw [← e]; rfl, .set r1 imm⟩
  | pnt w1 w2 => exact exec_cases_of_withRegs rfl rfl fun r1 r2 h1 h2 => h1 ▸ h2 ▸ .pnt r1 r2
  | sav w1 w2 => exact exec_cases_of_withRegs rfl rfl fun r1 r2 h1 h2 => h1 ▸ h2 ▸ .sav r1 r2
  | cpy w1 w2 => exact exec_cases_of_withRegs rfl rfl fun r1 r2 h1 h2 => h1 ▸ h2 ▸ .cpy r1 r2
  | add w1 w2 => exact exec_cases_of_withRegs rfl rfl fun r1 r2 h1 h2 => h1 ▸ h2 ▸ .add r1 r2
  | sub w1 w2 => exact exec_cases_of_withRegs rfl rfl fun r1 r2 h1 h2 => h1 ▸ h2 ▸ .sub r1 r2
  | xor w1 w2 => exact exec_cases_of_withRegs rfl rfl fun r1 r2 h1 h2 => h1 ▸ h2 ▸ .xor r1 r2
  | nor w1 w2 => exact exec_cases_of_withRegs rfl rfl fun r1 r2 h1 h2 => h1 ▸ h2 ▸ .nor r1 r2
  | and w1 w2 => exact exec_cases_of_withRegs rfl rfl fun r1 r2 h1 h2 => h1 ▸ h2 ▸ .and r1 r2
  | lst w1 w2 => exact exec_cases_of_withRegs rfl rfl fun r1 r2 h1 h2 => h1 ▸ h2 ▸ .lst r1 r2
  | jnz w1 w2 =>
    refine exec_cases_of_withRegs rfl rfl fun r1 r2 h1 h2 => ?_
    subst h1 h2
    split
    · rename_i h
      exact .jump r1 r2 (by simpa [isNonzero] using h)
    · rename_i h
      exact .fallThrough r1 r2 (by simpa [isNonzero] using h)

theorem exec_next (i : Instr) (s : State) : ∃ t, exec i s = .next t := by
  rcases exec_cases i s with ⟨-, e⟩ | ⟨-, t, e, -⟩
  · exact ⟨_, e⟩
  · exact ⟨t, e⟩

end Sys2Proof.Machine
end

