-- ==== Sys2Proof/Laws/Fetch.lean ====
section
/-! SUPPORT. The laws of the fetch. -/

namespace Sys2Proof.Machine

/-- All that the fetch of the CORE can do. -/
theorem fetch_cases (s : State) :
    (Opcode.ofWord (s.mem.read (s.reg .count)) = none ∧ fetch s = .fault .unrecognizedOpcode) ∨
    (s.mem.read (s.reg .count) = 0#16 ∧ fetch s = .instr .hlt) ∨
    (∃ op, op ≠ .hlt ∧ s.mem.read (s.reg .count) = Opcode.word op ∧
      fetch s = .instr (op.build (s.mem.read (s.reg .count + 1#16)) (s.mem.read (s.reg .count + 2#16)))) := by
  unfold fetch fetchOn
  simp only [memoryController_load]
  cases h : Opcode.ofWord (s.mem.read (s.reg .count)) with
  | none => exact .inl ⟨rfl, rfl⟩
  | some op =>
    have hw := Opcode.ofWord_eq_some h
    cases op with
    | hlt => exact .inr (.inl ⟨hw, rfl⟩)
    | _ => exact .inr (.inr ⟨_, by simp, hw, rfl⟩)

end Sys2Proof.Machine
end

