-- ==== Sys2Proof/Laws/PerInstr.lean ====
section
/-! SUPPORT. Statements about every instruction as syntax, one lemma per constructor. -/

namespace Sys2Proof.Laws.EncodeHead

/-- R62, R63, R66: an instruction's words begin with its opcode's word, and there are as many as its opcode says. -/
def Statement (i : Instr) : Prop := (encode i).head? = some i.opcode.word ∧ (encode i).length = i.opcode.length

theorem hlt : Statement .hlt := ⟨rfl, rfl⟩
theorem pnt (r1 r2 : Word) : Statement (.pnt r1 r2) := ⟨rfl, rfl⟩
theorem sav (r1 r2 : Word) : Statement (.sav r1 r2) := ⟨rfl, rfl⟩
theorem set (r1 imm : Word) : Statement (.set r1 imm) := ⟨rfl, rfl⟩
theorem cpy (r1 r2 : Word) : Statement (.cpy r1 r2) := ⟨rfl, rfl⟩
theorem add (r1 r2 : Word) : Statement (.add r1 r2) := ⟨rfl, rfl⟩
theorem sub (r1 r2 : Word) : Statement (.sub r1 r2) := ⟨rfl, rfl⟩
theorem xor (r1 r2 : Word) : Statement (.xor r1 r2) := ⟨rfl, rfl⟩
theorem nor (r1 r2 : Word) : Statement (.nor r1 r2) := ⟨rfl, rfl⟩
theorem and (r1 r2 : Word) : Statement (.and r1 r2) := ⟨rfl, rfl⟩
theorem lst (r1 r2 : Word) : Statement (.lst r1 r2) := ⟨rfl, rfl⟩
theorem jnz (r1 r2 : Word) : Statement (.jnz r1 r2) := ⟨rfl, rfl⟩

end Sys2Proof.Laws.EncodeHead
end

