-- ==== Sys2Proof/Laws/Step.lean ====
section
/-! SUPPORT. What a step can do. -/

namespace Sys2Proof.Machine

/-- All that a step with a next state can be: the core was running, its part of the cycle left some state `u`, and the tick
followed. -/
theorem step_cases {s t : State} (h : step s = .next t) :
    s.status = .running ∧ ∃ u, t = tick u ∧
      ((fetch s = .fault .unrecognizedOpcode ∧ u = raiseFault .unrecognizedOpcode s) ∨
       ∃ i, fetch s = .instr i ∧ exec i s = .next u) := by
  unfold step at h
  cases hs : s.status with
  | halted c => simp [hs] at h
  | running =>
    refine ⟨rfl, ?_⟩
    simp only [hs] at h
    cases hf : fetch s with
    | fault c =>
      have hc : c = .unrecognizedOpcode := by
        rcases fetch_cases s with ⟨-, e⟩ | ⟨-, e⟩ | ⟨op, -, -, e⟩ <;> rw [hf] at e <;> cases e
        rfl
      subst hc
      simp only [hf, endCycle, Host.Outcome.next.injEq] at h
      exact ⟨_, h.symm, .inl ⟨rfl, rfl⟩⟩
    | instr i =>
      obtain ⟨u, he⟩ := exec_next i s
      simp only [hf, he, endCycle, Host.Outcome.next.injEq] at h
      exact ⟨u, h.symm, .inr ⟨i, rfl, he⟩⟩

/-- The step that runs a fetched instruction. -/
theorem step_of_fetch_instr {s u : State} {i : Instr} (hs : s.status = .running) (hf : fetch s = .instr i)
    (he : exec i s = .next u) : step s = .next (tick u) := by
  simp [step, hs, hf, he, endCycle]

/-- The step that takes the fault of its fetch. -/
theorem step_of_fetch_fault {s : State} {c : HaltCode} (hs : s.status = .running) (hf : fetch s = .fault c) :
    step s = .next (tick (raiseFault c s)) := by
  simp [step, hs, hf, endCycle]

end Sys2Proof.Machine
end

