-- ==== Sys2Proof/Tests/Slice0.lean ====
section
/-! SUPPORT. Tests of the model, each named; expected values come from 95_test_vectors.md (named in the docstrings) or are worked
by hand from the rules. The theorems that begin with `witness` show, for a statement of Certificates/Slice0/Obligations.lean with
hypotheses, a concrete case that meets all of them together. -/

namespace Sys2Proof.Tests

open Sys2Proof.Machine

/-- A running core with the given memory, every register 0 but those named. -/
def core (count : Word) (m : Memory) (out a b c : Word := 0) : State :=
  { State.reset with regs := { State.reset.regs with count, out, a, b, c }, mem := m }

/-- The words of one instruction at 100, the address that most test vectors start from. -/
def at100 (ws : List Word) (m : Memory := []) : Memory := Memory.load m 100 ws

/-- Something read from the next state, if there is one. -/
def see {α : Type} (o : Host.Outcome State Fault Refusal) (f : State → α) : Option α :=
  match o with
  | .next t => some (f t)
  | .fault _ => none
  | .refused _ => none

/-- The CORE's peripheral, but that one address is answered `Fail`. -/
def failingAt (k : Word) : Peripheral where
  load m a := if a = k then .fail 7 else controllerLoad m a
  store m a v := if a = k then (.fail 7, m) else controllerStore m a v

/-! ### Well-formedness: each check refuses an ill-formed term -/

theorem test_wf_refuses_pnt_first : (Instr.pnt 8 0).wellFormed = false := by decide
theorem test_wf_refuses_pnt_second : (Instr.pnt 0 8).wellFormed = false := by decide
theorem test_wf_refuses_sav_first : (Instr.sav 65535 0).wellFormed = false := by decide
theorem test_wf_refuses_sav_second : (Instr.sav 0 8).wellFormed = false := by decide
theorem test_wf_refuses_set : (Instr.set 8 5).wellFormed = false := by decide
theorem test_wf_refuses_cpy_first : (Instr.cpy 8 0).wellFormed = false := by decide
theorem test_wf_refuses_cpy_second : (Instr.cpy 2 8).wellFormed = false := by decide
theorem test_wf_refuses_add_first : (Instr.add 9 2).wellFormed = false := by decide
theorem test_wf_refuses_add_second : (Instr.add 2 9).wellFormed = false := by decide
theorem test_wf_refuses_sub_first : (Instr.sub 8 7).wellFormed = false := by decide
theorem test_wf_refuses_sub_second : (Instr.sub 7 8).wellFormed = false := by decide
theorem test_wf_refuses_xor_first : (Instr.xor 8 7).wellFormed = false := by decide
theorem test_wf_refuses_xor_second : (Instr.xor 7 8).wellFormed = false := by decide
theorem test_wf_refuses_nor_first : (Instr.nor 8 7).wellFormed = false := by decide
theorem test_wf_refuses_nor_second : (Instr.nor 7 8).wellFormed = false := by decide
theorem test_wf_refuses_and_first : (Instr.and 8 7).wellFormed = false := by decide
theorem test_wf_refuses_and_second : (Instr.and 7 8).wellFormed = false := by decide
theorem test_wf_refuses_lst_first : (Instr.lst 8 7).wellFormed = false := by decide
theorem test_wf_refuses_lst_second : (Instr.lst 7 8).wellFormed = false := by decide
theorem test_wf_refuses_jnz_first : (Instr.jnz 8 7).wellFormed = false := by decide
theorem test_wf_refuses_jnz_second : (Instr.jnz 7 8).wellFormed = false := by decide
/-- Y4: SET's second word is no register operand. -/
theorem test_wf_accepts_any_immediate : (Instr.set 7 65535).wellFormed = true := by decide

/-! ### Decoding: words written out from 30_encoding.md R62 and R63 -/

theorem test_decode_hlt : decodeTableWord 16 0x0000 = some .hlt := by decide
theorem test_decode_pnt : decodeTableWord 48 0x000300020001 = some (.pnt 2 3) := by decide
theorem test_decode_sav : decodeTableWord 48 0x000300020002 = some (.sav 2 3) := by decide
theorem test_decode_set : decodeTableWord 48 0xFFFF00070003 = some (.set 7 0xFFFF) := by decide
theorem test_decode_cpy : decodeTableWord 48 0x000100000004 = some (.cpy 0 1) := by decide
theorem test_decode_add : decodeTableWord 48 0x000600050005 = some (.add 5 6) := by decide
theorem test_decode_sub : decodeTableWord 48 0x000400020006 = some (.sub 2 4) := by decide
theorem test_decode_xor : decodeTableWord 48 0x000700010007 = some (.xor 1 7) := by decide
theorem test_decode_nor : decodeTableWord 48 0x000200030008 = some (.nor 3 2) := by decide
theorem test_decode_and : decodeTableWord 48 0x000500040009 = some (.and 4 5) := by decide
theorem test_decode_lst : decodeTableWord 48 0x00000006000A = some (.lst 6 0) := by decide
theorem test_decode_jnz : decodeTableWord 48 0x00030002000B = some (.jnz 2 3) := by decide
/-- The table gives the opcode word's bits only: operand words of zeros. -/
theorem test_decode_short_row : decodeTableWord 16 0x0005 = some (.add 0 0) := by decide
theorem test_decode_unrecognized : decode [12, 9, 9] = .error (.unrecognizedOpcode 12) := by rfl
theorem test_decode_opcode_is_whole_word : decodeTableWord 48 0x000300020101 = none := by decide
theorem test_decode_truncated : decode [5, 2] = .error .truncated := by rfl
/-- S1: `SET a 5`, `HLT` as bytes. -/
theorem test_encode_s1 : fileOfImage (encode (.set 2 5) ++ encode .hlt) = [0x00, 0x03, 0x00, 0x02, 0x00, 0x05, 0x00, 0x00] := by
  decide

/-! ### One step of each instruction -/

/-- H1. -/
theorem test_hlt : see (step (core 500 [] 0 9)) (fun t => (t.status, t.reg .count, t.reg .a)) =
    some (.halted .normal, 500, 9) := by decide

/-- M2: the address is p + 3. -/
theorem test_pnt_count_reads_ahead :
    see (step (core 100 (at100 [1, 1, 2] [(103, 0xBEEF)]))) (fun t => (t.reg .a, t.reg .count)) =
      some (0xBEEF, 103) := by decide

/-- M3. -/
theorem test_pnt_to_count_jumps :
    see (step (core 100 (at100 [1, 2, 1] [(500, 1234)]) 0 500)) (fun t => (t.reg .count, t.reg .a)) =
      some (1234, 500) := by decide

/-- M6: r1 is the data and r2 the address. -/
theorem test_sav : see (step (core 100 (at100 [2, 2, 3]) 0 7 200))
    (fun t => (t.mem.read 200, t.mem.read 7, t.reg .count)) = some (7, 0, 103) := by decide

/-- M7: over its own opcode word. -/
theorem test_sav_over_itself : see (step (core 100 (at100 [2, 2, 3]) 0 0 100))
    (fun t => (t.status, t.mem.read 100, t.reg .count)) = some (.running, 0, 103) := by decide

/-- Y6: operands at 65535 and 0. -/
theorem test_set_at_top_of_memory :
    see (step (core 65534 [(0, 77), (65534, 3), (65535, 2)])) (fun t => (t.reg .a, t.reg .count)) = some (77, 1) := by
  decide

/-- R25: operands at 0 and 1, `count` goes on to 2. -/
theorem test_add_at_last_address :
    see (step (core 65535 [(0, 2), (1, 3), (65535, 5)] 0 7 8)) (fun t => (t.reg .out, t.reg .count)) = some (15, 2) := by
  decide

/-- R2v. -/
theorem test_set_count_jumps : see (step (core 100 (at100 [3, 1, 500]))) (fun t => t.reg .count) = some 500 := by decide

/-- R3v. -/
theorem test_cpy : see (step (core 100 (at100 [4, 2, 3]) 0 42)) (fun t => (t.reg .b, t.reg .a, t.reg .count)) =
    some (42, 42, 103) := by decide

/-- R5v. -/
theorem test_cpy_count_count : see (step (core 100 (at100 [4, 1, 1]))) (fun t => t.reg .count) = some 103 := by decide

/-- Y8: the source is the destination, and the sum wraps. -/
theorem test_add_wraps : see (step (core 100 (at100 [5, 0, 0]) 40000)) (fun t => (t.reg .out, t.reg .count)) =
    some (14464, 103) := by decide

/-- A1: `count` reads p + 3. -/
theorem test_add_count : see (step (core 100 (at100 [5, 1, 2]) 0 10)) (fun t => t.reg .out) = some 113 := by decide

/-- The ALU table, row 0, 1. -/
theorem test_sub_wraps : see (step (core 100 (at100 [6, 2, 3]) 0 0 1)) (fun t => t.reg .out) = some 65535 := by decide

/-- The ALU table, row 0x1234, 0xFF00. -/
theorem test_sub_order : see (step (core 100 (at100 [6, 2, 3]) 0 0x1234 0xFF00)) (fun t => t.reg .out) = some 0x1334 := by
  decide

/-- The ALU table, row 0x1234, 0xFF00. -/
theorem test_xor : see (step (core 100 (at100 [7, 2, 3]) 0 0x1234 0xFF00)) (fun t => t.reg .out) = some 0xED34 := by
  decide

/-- The ALU table, row 0x1234, 0xFF00. -/
theorem test_nor : see (step (core 100 (at100 [8, 2, 3]) 0 0x1234 0xFF00)) (fun t => t.reg .out) = some 0x00CB := by
  decide

/-- The ALU table, row 0x1234, 0xFF00. -/
theorem test_and : see (step (core 100 (at100 [9, 2, 3]) 0 0x1234 0xFF00)) (fun t => t.reg .out) = some 0x1200 := by
  decide

/-- The ALU table, row 32768, 1: the comparison is unsigned. -/
theorem test_lst_unsigned : see (step (core 100 (at100 [10, 2, 3]) 9 32768 1)) (fun t => t.reg .out) = some 0 := by decide

/-- The ALU table, row 1, 65535. -/
theorem test_lst_less : see (step (core 100 (at100 [10, 2, 3]) 9 1 65535)) (fun t => t.reg .out) = some 1 := by decide

/-- J1. -/
theorem test_jnz_taken : see (step (core 100 (at100 [11, 2, 3]) 0 1 40)) (fun t => t.reg .count) = some 40 := by decide

/-- J4: `count` reads 0 at 65533, so the branch is not taken. -/
theorem test_jnz_count_wraps : see (step (core 65533 [(65533, 11), (65534, 1), (65535, 3)] 0 0 500))
    (fun t => t.reg .count) = some 0 := by decide

/-! ### Faults, the console, reset -/

/-- Y1: fault 1 wins over the bad operands. -/
theorem test_unrecognized_opcode : see (step (core 0 [(0, 12), (1, 9), (2, 9)])) (fun t => (t.status, t.reg .count)) =
    some (.halted .unrecognizedOpcode, 0) := by decide

/-- S4: the fault mutates no register. -/
theorem test_bad_register_is_precise : see (step (core 0 [(0, 5), (1, 9), (2, 2)] 1 2 3 4)) (fun t => (t.status, t.regs)) =
    some (.halted .registerOutOfRange, (core 0 [] 1 2 3 4).regs) := by decide

/-- A `Fail` answer to PNT's data `Load` is fault 3, and nothing is committed. -/
theorem test_pnt_bus_failure : pntOn (failingAt 200) 2 3 (core 100 [] 0 200) =
    raiseFault .busFailure (core 100 [] 0 200) := by decide

/-- C1, in the cycle of a HLT. -/
theorem test_console_two_bytes : see (step (core 0 [(8080, 2), (8081, 0x4869)]))
    (fun t => (t.console, t.mem.read 8080, t.mem.read 8081)) = some ([0x48, 0x69], 0, 0x4869) := by decide

/-- C4: any other nonzero flag is one byte. -/
theorem test_console_one_byte : see (step (core 0 [(8080, 65535), (8081, 0x4869)])) (fun t => t.console) =
    some [0x69] := by decide

/-- A halted core makes no step. -/
theorem test_halted_is_stuck : see (step ((core 100 (at100 [3, 2, 5])).halt .normal)) (fun t => t.status) = none := by
  decide

/-- R125: a word at the last address, then one that wraps to address 0. -/
theorem test_load_wraps : Memory.load [] 65535 [7, 8] = [(0, 8), (65535, 7)] := by decide

/-- A placed instruction is the one that the next step runs. -/
theorem test_with_fetch_word : see (step (State.reset.withFetchWord 48 0x000500020003))
    (fun t => (t.reg .a, t.reg .count)) = some (5, 3) := by decide

/-- R126: the trailing odd byte is dropped. -/
theorem test_odd_byte : imageOfFile [0x12, 0x34, 0x56] = [0x1234] := by decide

/-! ### Witnesses: the hypotheses of the statements can be met -/

/-- ProgramFileRoundTrip. -/
theorem witness_odd_byte : ([0x41] : List Byte).length ≤ 1 := by decide

/-- StepRunsTheDecodedInstruction, first clause; StepIsThePseudocodeCycle; IllegalEncodingsFault on a legal instruction. -/
theorem witness_decoded : (core 100 (at100 [3, 2, 5])).status = .running ∧
    decode (core 100 (at100 [3, 2, 5])).instructionWords = .ok (.set 2 5, []) := ⟨rfl, rfl⟩

/-- StepRunsTheDecodedInstruction, second clause. -/
theorem witness_unrecognized : (core 100 (at100 [12])).status = .running ∧
    decode (core 100 (at100 [12])).instructionWords = .error (.unrecognizedOpcode 12) := ⟨rfl, rfl⟩

/-- IllegalEncodingsFault: the cases of the run status at their boundaries, each from a running state. -/
theorem witness_status_cases :
    statusAfter 0 8 8 = .halted .normal ∧ statusAfter 11 7 7 = .running ∧ statusAfter 12 0 0 = .halted .unrecognizedOpcode ∧
    statusAfter 65535 0 0 = .halted .unrecognizedOpcode ∧ statusAfter 1 8 0 = .halted .registerOutOfRange ∧
    statusAfter 1 0 8 = .halted .registerOutOfRange ∧ statusAfter 3 7 65535 = .running ∧
    statusAfter 3 8 0 = .halted .registerOutOfRange := by decide

/-- HaltingCyclesArePrecise, and IllegalEncodingsFault's last clause: a cycle that ends in Halted. -/
theorem witness_halting_cycle :
    ∃ t, step (core 0 [(0, 5), (1, 9), (2, 2)]) = .next t ∧ t.status = .halted .registerOutOfRange := ⟨_, rfl, rfl⟩

/-- AnyBusFailureIsFaultThree and FaultsOnFetchFailure: the opcode fetch is answered `Fail`. -/
theorem witness_opcode_fetch_fails : (failingAt 100).load (core 100 []).mem ((core 100 []).reg .count) = .fail 7 := by
  decide

/-- AnyBusFailureIsFaultThree and FaultsOnFetchFailure: for every opcode with operands, its word is fetched and either operand
fetch is answered `Fail`. -/
theorem witness_operand_fetch_fails : ∀ op ∈ [Opcode.pnt, .sav, .set, .cpy, .add, .sub, .xor, .nor, .and, .lst, .jnz],
    (failingAt 101).load (at100 [op.word]) 100 = .data op.word ∧ (failingAt 101).load (at100 [op.word]) (100 + 1) = .fail 7 ∧
    (failingAt 102).load (at100 [op.word]) 100 = .data op.word ∧ (failingAt 102).load (at100 [op.word]) (100 + 2) = .fail 7 := by
  decide

/-- AnyBusFailureIsFaultThree, PntLoadsTheAddressedWord, SavStoresAtTheAddress: the data access is answered `Fail`. -/
theorem witness_data_access_fails :
    (failingAt 200).load (core 100 [] 0 200).mem ((core 100 [] 0 200).operand .a) = .fail 7 ∧
    (failingAt 200).store (core 100 [] 0 200 5).mem ((core 100 [] 0 200 5).operand .a) ((core 100 [] 0 200 5).operand .b) =
      (.fail 7, []) := by decide

/-- ControllerNeverFails, MemoryIsServedRequestsThenTick, ConsoleFlagIsClearAfterEveryCycle: a step with a next state. -/
theorem witness_step : ∃ t, step (core 100 (at100 [2, 2, 3]) 0 7 200) = .next t := ⟨_, rfl⟩

/-- HaltedCoreMakesNoStep. -/
theorem witness_halted : (State.reset.halt .busFailure).status = .halted .busFailure := rfl

/-- InstructionWrapsAtTopOfMemory at 65534, first and third clauses (Y6). -/
theorem witness_wrap : (core 65534 [(0, 77), (65534, 3), (65535, 2)]).status = .running ∧ Opcode.set ≠ .hlt ∧
    (core 65534 [(0, 77), (65534, 3), (65535, 2)]).reg .count = 65534#16 ∧
    (core 65534 [(0, 77), (65534, 3), (65535, 2)]).mem.read 65534#16 = 3#16 ∧ Opcode.set.word = 3#16 ∧
    (core 65534 [(0, 77), (65534, 3), (65535, 2)]).mem.read 65535#16 = Reg.a.word ∧ Reg.a ≠ .count := by decide

/-- InstructionWrapsAtTopOfMemory at 65535, second and fourth clauses. -/
theorem witness_wrap_last : (core 65535 [(0, 2), (1, 77), (65535, 3)]).status = .running ∧
    (core 65535 [(0, 2), (1, 77), (65535, 3)]).reg .count = 65535#16 ∧
    (core 65535 [(0, 2), (1, 77), (65535, 3)]).mem.read 65535#16 = 3#16 ∧ Opcode.set.word = 3#16 ∧
    (core 65535 [(0, 2), (1, 77), (65535, 3)]).mem.read 0#16 = Reg.a.word := by decide

/-- CycleRunsThenGoesTo: the first and the last opcode with operands, legal at 65534 and writing no `count` of their own. -/
theorem witness_wrap_advances : (core 65534 [(65534, 1)]).mem.read 65534#16 = Opcode.pnt.word ∧
    (Opcode.pnt.build 0 0).wellFormed = true ∧ ¬ WritesCount (Opcode.pnt.build 0 0) (core 65534 [(65534, 1)]) ∧
    (core 65534 [(65534, 11)]).mem.read 65534#16 = Opcode.jnz.word ∧ (Opcode.jnz.build 0 0).wellFormed = true ∧
    ¬ WritesCount (Opcode.jnz.build 0 0) (core 65534 [(65534, 11)]) := by
  refine ⟨rfl, rfl, show ¬ (0 : Word) = Reg.count.word by decide, rfl, rfl, ?_⟩
  rintro ⟨r1, h, hne⟩
  cases r1 <;> first | exact hne rfl | exact absurd h (by decide)

/-- HltHaltsNormally: a running core at a HLT, the answer `Data(0)`, the answer `Fail`, and a step with a next state. -/
theorem witness_hlt : State.reset.status = .running ∧ State.reset.mem.read (State.reset.reg .count) = 0#16 ∧
    (failingAt 1).load State.reset.mem (State.reset.reg .count) = .data 0#16 ∧
    (failingAt 0).load State.reset.mem (State.reset.reg .count) = .fail 7 ∧
    (see (step State.reset) fun t => t.status) = some (.halted .normal) := by decide

/-- FaultsOnBadRegisters and SetWritesTheImmediate: the first word above 7, or the second. -/
theorem witness_bad_register : (7 < (8 : Word).toNat ∨ 7 < (0 : Word).toNat) ∧ (7 < (7 : Word).toNat ∨ 7 < (8 : Word).toNat) := by
  decide

/-- The premises of JnzJumpsIfNonzero and ControlTransfersAreTheTables on the tested register, `count` at 65533 included. -/
theorem witness_jnz : (core 100 [] 0 1).operand .a ≠ 0#16 ∧ (core 100 [] 0 0).operand .a = 0#16 ∧
    (core 65533 []).operand .count = 0#16 := by decide

/-- SetWritesTheImmediate, CpyCopiesTheRegister, PntLoadsTheAddressedWord: a destination other than `count`. -/
theorem witness_destination : Reg.out ≠ .count ∧ Reg.f ≠ .count := by decide

/-- LstWritesUnsignedLessThan: both sides of the comparison, at equality too. -/
theorem witness_lst : (1 : Word).toNat < (65535 : Word).toNat ∧ (5 : Word).toNat ≤ (5 : Word).toNat := by decide

/-- ControlTransfersAreTheTables, last clause: a legal instruction that is not HLT and does not write `count`. -/
theorem witness_no_transfer : (Instr.cpy 1 2).wellFormed = true ∧ Instr.cpy 1 2 ≠ .hlt ∧
    ¬ WritesCount (.cpy 1 2) State.reset := ⟨by decide, by decide, by unfold WritesCount; decide⟩

/-- The same clause for a JNZ that is not taken. -/
theorem witness_no_jump : (Instr.jnz 2 3).wellFormed = true ∧ Instr.jnz 2 3 ≠ .hlt ∧
    ¬ WritesCount (.jnz 2 3) State.reset := by
  refine ⟨by decide, by decide, ?_⟩
  rintro ⟨r1, hr, hne⟩
  cases r1 <;> revert hr hne <;> decide

/-- OnlySavChangesMemory: an instruction that is not SAV. -/
theorem witness_not_sav : (Instr.pnt 2 3).opcode ≠ .sav := by decide

/-- CanonicalMemoryIsItsContents and EveryStepKeepsMemoryCanonical: a canonical memory with words in it. -/
theorem witness_canonical : Memory.wf (at100 [2, 2, 3]) = true ∧ (core 100 (at100 [2, 2, 3]) 0 7 200).canonical ∧
    (∀ a, Memory.read (at100 [2, 2, 3]) a = Memory.read [(100, 2), (101, 2), (102, 3)] a) := ⟨rfl, rfl, fun _ => rfl⟩

/-- CycleIssuesTheTablesRequests: every clause's premises, at their boundaries. -/
theorem witness_requests :
    (core 100 (at100 [0])).mem.read 100 = 0 ∧ (core 100 (at100 [12])).mem.read 100 = 12 ∧
    cycleRequests (core 100 (at100 [12])) = [.load 100] ∧
    cycleRequests (core 100 (at100 [1, 8, 0])) = [.load 100, .load 101, .load 102] ∧
    cycleRequests (core 100 (at100 [11, 2, 3])) = [.load 100, .load 101, .load 102] ∧
    cycleRequests (core 100 (at100 [3, 2, 65535])) = [.load 100, .load 101, .load 102] ∧
    cycleRequests (core 100 (at100 [1, 2, 3]) 0 200) = [.load 100, .load 101, .load 102, .load 200] ∧
    cycleRequests (core 100 (at100 [2, 1, 2]) 0 200) = [.load 100, .load 101, .load 102, .store 200 103] := by decide

/-- StepReadsOnlyItsRequests: two states that differ in a word that the step does not look at. -/
theorem witness_same_requests :
    (core 0 [(5, 9)]).status = (core 0 []).status ∧ (core 0 [(5, 9)]).regs = (core 0 []).regs ∧
    (core 0 [(5, 9)]).console = (core 0 []).console ∧
    (∀ a : Word, BusRequest.load a ∈ cycleRequests (core 0 []) ∨ a = 8080#16 ∨ a = 8081#16 →
      (core 0 [(5, 9)]).mem.read a = (core 0 []).mem.read a) ∧
    ∃ s', step (core 0 []) = .next s' := by
  refine ⟨rfl, rfl, rfl, ?_, _, rfl⟩
  intro a h
  have hreq : cycleRequests (core 0 []) = [.load 0] := by decide
  rw [hreq, List.mem_singleton] at h
  rcases h with h | rfl | rfl
  · cases h
    decide
  · decide
  · decide

/-- SavCycleStoresThenTicks: a SAV to the console flag. -/
theorem witness_sav_cycle : (core 100 (at100 [2, 2, 3]) 0 1 8080).status = .running ∧
    decode (core 100 (at100 [2, 2, 3]) 0 1 8080).instructionWords = .ok (.sav Reg.a.word Reg.b.word, []) := ⟨rfl, rfl⟩

/-- TickConsumesTheFlag: flags 0, 2 and another; a fetched instruction with its next state; a fetch that faults. -/
theorem witness_tick : (core 0 []).mem.read 8080#16 = 0#16 ∧
    ((core 0 [(8080, 2)]).mem.read 8080#16 ≠ 0#16 ∧ (core 0 [(8080, 2)]).mem.read 8080#16 = 2#16) ∧
    ((core 0 [(8080, 1)]).mem.read 8080#16 ≠ 0#16 ∧ (core 0 [(8080, 1)]).mem.read 8080#16 ≠ 2#16) ∧
    fetch (core 100 (at100 [4, 2, 3])) = .instr (.cpy 2 3) ∧ fetch (core 100 (at100 [12])) = .fault .unrecognizedOpcode ∧
    (core 100 (at100 [4, 2, 3])).status = .running ∧ (core 100 (at100 [12])).status = .running := by decide

theorem witness_tick_exec : ∃ u, exec (.cpy 2 3) (core 100 (at100 [4, 2, 3])) = .next u := ⟨_, rfl⟩

/-- ConsoleStreamOnlyGrows, HaltedCoreMakesNoStep, RunIsSafeExactlyWhenLegal: a run of one step that prints. -/
theorem witness_reachable : ∃ t, Reachable (core 0 [(8080, 1), (8081, 0x41)]) t ∧ t.console = [0x41] :=
  ⟨_, .next .refl rfl, rfl⟩

/-- RunIsSafeExactlyWhenLegal: the reset state has not faulted, it is running, and its next instruction is legal. -/
theorem witness_not_faulted : ¬ State.reset.faulted ∧ State.reset.status = .running ∧ State.reset.legalNext := by
  refine ⟨?_, rfl, .hlt, rfl, rfl⟩
  rintro ⟨c, hc, -⟩
  cases hc

/-- StartStateIsTheResetTable: a word of an image that no later word overwrites, and an address outside the image. -/
theorem witness_image : (1 < [(3 : Word), 2, 5].length ∧
      ∀ j, 1 < j → j < [(3 : Word), 2, 5].length → j % 65536 ≠ 1 % 65536) ∧
    ∀ i, i < [(3 : Word), 2, 5].length → i % 65536 ≠ (8080 : Word).toNat := by
  have h8080 : (8080 : Word).toNat = 8080 := rfl
  refine ⟨⟨by decide, fun j h1 h2 => ?_⟩, fun i h => ?_⟩
  · simp only [List.length_cons, List.length_nil] at h2
    omega
  · simp only [List.length_cons, List.length_nil] at h
    omega

/-- ProgramFileGivesItsImage: a file with a second word. -/
theorem witness_file : 2 * 1 + 1 < ([0x00, 0x03, 0x00, 0x02, 0x41] : List Byte).length := by decide

end Sys2Proof.Tests
end

section
/-! PROOF. The fetch of the CORE is the decoding of the three words at `count`, and the step runs what they decode to. -/

namespace Sys2Proof.Machine

/-- All that the decoder and the fetch can say of the three words at `count` (R78 to R80): they agree, and the words are never
too few. -/
theorem decode_fetch_cases (s : State) :
    (decode s.instructionWords = .error (.unrecognizedOpcode (s.mem.read (s.reg .count))) ∧
      fetch s = .fault .unrecognizedOpcode) ∨
    ∃ i rest, decode s.instructionWords = .ok (i, rest) ∧ fetch s = .instr i := by
  rcases fetch_cases s with ⟨hnone, hf⟩ | ⟨hzero, hf⟩ | ⟨op, hop, hword, hf⟩
  · exact .inl ⟨decode_unrecognized hnone _, hf⟩
  · have hd : decode s.instructionWords = .ok (.hlt, s.instructionWords.tail) := by
      rw [State.instructionWords, hzero]
      rfl
    exact .inr ⟨_, _, hd, hf⟩
  · have hsome : Opcode.ofWord (s.mem.read (s.reg .count)) = some op := by rw [hword, Opcode.ofWord_word]
    exact .inr ⟨_, _, decode_operands hsome hop _ _ _, hf⟩

/-- The fetch gives the instruction that the words at `count` decode to. -/
theorem fetch_of_decode_ok {s : State} {i : Instr} {rest : List Word}
    (h : decode s.instructionWords = .ok (i, rest)) : fetch s = .instr i := by
  rcases decode_fetch_cases s with ⟨hd, -⟩ | ⟨j, rest', hd, hf⟩ <;> rw [h] at hd <;> cases hd
  exact hf

/-- R67, R79: the fetch is fault 1 when the decoder finds no opcode. -/
theorem fetch_of_decode_error {s : State} {e : DecodeError} (h : decode s.instructionWords = .error e) :
    fetch s = .fault .unrecognizedOpcode := by
  rcases decode_fetch_cases s with ⟨-, hf⟩ | ⟨j, rest, hd, -⟩
  · exact hf
  · rw [h] at hd
    cases hd

/-- Settles O8: the decoder and the fetch agree, every instruction answers a next state, and one tick ends the cycle. -/
theorem stepRunsTheDecodedInstruction : Obligations.StepRunsTheDecodedInstruction := by
  refine ⟨fun s i rest hrun hdecode => ?_, fun s w0 hrun hdecode => ?_⟩
  · obtain ⟨u, hexec⟩ := exec_next i s
    exact ⟨u, hexec, step_of_fetch_instr hrun (fetch_of_decode_ok hdecode) hexec⟩
  · exact step_of_fetch_fault hrun (fetch_of_decode_error hdecode)

end Sys2Proof.Machine
end

section
/-! PROOF. A step keeps the memory canonical, and looks at no word of it but those its cycle loads and the console words. -/

namespace Sys2Proof.Machine

/-! ### What an instruction answers, and what it leaves of memory -/

/-- The converse of `exec_cases`: `Effect` gives the very state that the instruction answers. -/
theorem Effect.exec_eq {s t : State} {i : Instr} (h : Effect s i t) : exec i s = .next t := by
  cases h with
  | hlt => rfl
  | pnt r1 r2 => simp [exec, execPnt, pntOn]
  | sav r1 r2 => simp [exec, execSav, savOn]
  | set r1 imm => simp [exec, execSet]
  | cpy r1 r2 => simp [exec, execCpy]
  | add r1 r2 => simp [exec, execAdd, aluOp]
  | sub r1 r2 => simp [exec, execSub, aluOp]
  | xor r1 r2 => simp [exec, execXor, aluOp]
  | nor r1 r2 => simp [exec, execNor, aluOp]
  | and r1 r2 => simp [exec, execAnd, aluOp]
  | lst r1 r2 => simp [exec, execLst, aluOp]
  | jump r1 r2 hne => simp [exec, execJnz, isNonzero, hne]
  | fallThrough r1 r2 hz => simp [exec, execJnz, isNonzero, hz]

/-- R81: an ill-formed instruction is fault 2. -/
theorem exec_of_not_wellFormed {i : Instr} (h : i.wellFormed = false) (s : State) :
    exec i s = .next (raiseFault .registerOutOfRange s) := by
  rcases exec_cases i s with ⟨-, e⟩ | ⟨hwf, -⟩
  · exact e
  · rw [h] at hwf
    cases hwf

/-- R56: the memory after an instruction is the memory before it, or one write to that. -/
theorem Effect.mem_cases {s t : State} {i : Instr} (h : Effect s i t) :
    t.mem = s.mem ∨ ∃ a v, t.mem = s.mem.write a v := by
  cases h with
  | sav r1 r2 => exact .inr ⟨_, _, rfl⟩
  | _ => exact .inl rfl

theorem exec_keeps_canonical {i : Instr} {s t : State} (hs : s.canonical) (he : exec i s = .next t) :
    t.canonical := by
  rcases exec_cases i s with ⟨-, e⟩ | ⟨-, u, e, heff⟩ <;> rw [he] at e <;> cases e
  · exact hs
  · rcases heff.mem_cases with hmem | ⟨a, v, hmem⟩ <;> rw [State.canonical, hmem]
    · exact hs
    · exact Memory.wf_write a v hs

/-- Settles O33: the core's part of a cycle makes at most one write, and the tick at most one more. -/
theorem everyStepKeepsMemoryCanonical : Obligations.EveryStepKeepsMemoryCanonical := by
  intro s t hs hstep
  obtain ⟨-, u, rfl, ⟨-, rfl⟩ | ⟨i, -, he⟩⟩ := step_cases hstep
  · exact wf_tick hs
  · exact wf_tick (exec_keeps_canonical hs he)

/-! ### States that agree on a set of addresses -/

/-- The states are equal but for memory, and their memories agree at the addresses of `P`. -/
structure AgreeOn (P : Word → Prop) (s t : State) : Prop where
  status : t.status = s.status
  regs : t.regs = s.regs
  console : t.console = s.console
  read : ∀ a, P a → t.mem.read a = s.mem.read a

section
variable {P : Word → Prop} {s t : State}

theorem AgreeOn.reg_eq (h : AgreeOn P s t) (r : Reg) : t.reg r = s.reg r := congrArg (·.get r) h.regs

theorem AgreeOn.after_setReg (h : AgreeOn P s t) (r : Reg) {v w : Word} (hv : w = v) :
    AgreeOn P (s.setReg r v) (t.setReg r w) where
  status := h.status
  regs := by rw [hv]; exact congrArg (·.set r v) h.regs
  console := h.console
  read := h.read

theorem AgreeOn.after_advance (h : AgreeOn P s t) : AgreeOn P s.advance t.advance :=
  h.after_setReg .count (by rw [h.reg_eq])

theorem AgreeOn.after_halt (h : AgreeOn P s t) (c : HaltCode) : AgreeOn P (s.halt c) (t.halt c) :=
  ⟨rfl, h.regs, h.console, h.read⟩

/-- The same write on both sides keeps the agreement, whether or not the address written is in `P`. -/
theorem AgreeOn.after_write (h : AgreeOn P s t) {a b v w : Word} (ha : b = a) (hv : w = v) :
    AgreeOn P (s.setMem (s.mem.write a v)) (t.setMem (t.mem.write b w)) where
  status := h.status
  regs := h.regs
  console := h.console
  read x hx := by simp [Memory.read_write, ha, hv, h.read x hx]

/-- The tick reads the two console words. -/
theorem AgreeOn.after_tick (h : AgreeOn P s t) (hflag : P 8080#16) (hdata : P 8081#16) :
    AgreeOn P (tick s) (tick t) where
  status := by simp [h.status]
  regs := by simp [h.regs]
  console := by simp only [console_tick, h.console, h.read _ hflag, h.read _ hdata]
  read a ha := by simp only [read_tick, h.read a ha]

/-- Two registers are read after the advance, and the result is written to one. -/
theorem AgreeOn.after_binary (h : AgreeOn P s t) (f : Word → Word → Word) (r1 r2 r : Reg) :
    AgreeOn P (s.advance.setReg r (f (s.advance.reg r1) (s.advance.reg r2)))
      (t.advance.setReg r (f (t.advance.reg r1) (t.advance.reg r2))) :=
  h.after_advance.after_setReg r (by simp only [h.after_advance.reg_eq])

/-- An instruction reads no memory but the word of its data `Load`. -/
theorem AgreeOn.after_effect {i : Instr} {u : State} (h : AgreeOn P s t)
    (hload : ∀ a, .load a ∈ dataRequests s i → P a) (heff : Effect s i u) :
    ∃ u', Effect t i u' ∧ AgreeOn P u u' := by
  have hadv := h.after_advance
  cases heff with
  | hlt => exact ⟨_, .hlt, h.after_halt _⟩
  | pnt r1 r2 =>
    have hP : P (s.advance.reg r1) := hload _ (by simp [dataRequests])
    exact ⟨_, .pnt r1 r2, hadv.after_setReg r2 (by rw [hadv.reg_eq, h.read _ hP])⟩
  | sav r1 r2 => exact ⟨_, .sav r1 r2, hadv.after_write (hadv.reg_eq r2) (hadv.reg_eq r1)⟩
  | set r1 imm => exact ⟨_, .set r1 imm, hadv.after_setReg r1 rfl⟩
  | cpy r1 r2 => exact ⟨_, .cpy r1 r2, hadv.after_setReg r2 (hadv.reg_eq r1)⟩
  | add r1 r2 => exact ⟨_, .add r1 r2, h.after_binary aluAdd r1 r2 .out⟩
  | sub r1 r2 => exact ⟨_, .sub r1 r2, h.after_binary aluSub r1 r2 .out⟩
  | xor r1 r2 => exact ⟨_, .xor r1 r2, h.after_binary aluXor r1 r2 .out⟩
  | nor r1 r2 => exact ⟨_, .nor r1 r2, h.after_binary aluNor r1 r2 .out⟩
  | and r1 r2 => exact ⟨_, .and r1 r2, h.after_binary aluAnd r1 r2 .out⟩
  | lst r1 r2 => exact ⟨_, .lst r1 r2, h.after_binary lessThan r1 r2 .out⟩
  | jump r1 r2 hne =>
    exact ⟨_, .jump r1 r2 (by rwa [hadv.reg_eq]), hadv.after_setReg .count (hadv.reg_eq r2)⟩
  | fallThrough r1 r2 hz => exact ⟨_, .fallThrough r1 r2 (by rwa [hadv.reg_eq]), hadv⟩

theorem AgreeOn.after_exec {i : Instr} {u : State} (h : AgreeOn P s t)
    (hload : ∀ a, .load a ∈ dataRequests s i → P a) (he : exec i s = .next u) :
    ∃ u', exec i t = .next u' ∧ AgreeOn P u u' := by
  rcases exec_cases i s with ⟨hwf, e⟩ | ⟨-, v, e, heff⟩ <;> rw [he] at e <;> cases e
  · exact ⟨_, exec_of_not_wellFormed hwf t, h.after_halt _⟩
  · obtain ⟨u', heff', hagree⟩ := h.after_effect hload heff
    exact ⟨u', heff'.exec_eq, hagree⟩

end

/-! ### The fetch and the requests of a cycle -/

/-- R80: the fetch of an instruction with operands. -/
theorem fetch_of_opcode {s : State} {op : Opcode} (hop : op ≠ .hlt) (hword : s.mem.read (s.reg .count) = op.word) :
    fetch s = .instr (op.build (s.mem.read (s.reg .count + 1#16)) (s.mem.read (s.reg .count + 2#16))) :=
  fetch_of_decode_ok (decode_operands (by rw [hword, Opcode.ofWord_word]) hop _ _ _)

/-- R79: the fetch of a HLT looks at no later word. -/
theorem fetch_of_zero {s : State} (hzero : s.mem.read (s.reg .count) = 0#16) : fetch s = .instr .hlt := by
  have hd : decode s.instructionWords = .ok (.hlt, s.instructionWords.tail) := by
    rw [State.instructionWords, hzero]
    rfl
  exact fetch_of_decode_ok hd

/-- R87: the cycle of an instruction with operands loads its three words and makes its data request. -/
theorem cycleRequests_of_fetch_instr {s : State} {i : Instr} (hs : s.status = .running) (hf : fetch s = .instr i)
    (hi : i ≠ .hlt) :
    cycleRequests s = .load (s.reg .count) :: .load (s.reg .count + 1#16) :: .load (s.reg .count + 2#16) ::
      dataRequests s i := by
  cases i with
  | hlt => exact absurd rfl hi
  | _ => simp only [cycleRequests, hs, hf]

/-- R87: every cycle of a running core loads the opcode word. -/
theorem load_count_mem_cycleRequests {s : State} (hs : s.status = .running) :
    .load (s.reg .count) ∈ cycleRequests s := by
  unfold cycleRequests
  rw [hs]
  cases hf : fetch s with
  | fault c => simp
  | instr i => cases i <;> simp

theorem build_ne_hlt {op : Opcode} (hop : op ≠ .hlt) (w1 w2 : Word) : op.build w1 w2 ≠ .hlt := fun h =>
  hop (by simpa [h, Instr.opcode] using (Opcode.opcode_build op w1 w2).symm)

/-- R87: the data requests of an instruction are among those of its cycle. -/
theorem mem_cycleRequests_of_mem_dataRequests {s : State} {i : Instr} {q : BusRequest} (hs : s.status = .running)
    (hf : fetch s = .instr i) (hq : q ∈ dataRequests s i) : q ∈ cycleRequests s := by
  have hi : i ≠ .hlt := by
    rintro rfl
    simp [dataRequests] at hq
  rw [cycleRequests_of_fetch_instr hs hf hi]
  simp [hq]

/-- The fetch reads no word but those that its cycle loads. -/
theorem AgreeOn.fetch_eq {P : Word → Prop} {s t : State} (h : AgreeOn P s t) (hs : s.status = .running)
    (hload : ∀ a, .load a ∈ cycleRequests s → P a) : fetch t = fetch s := by
  have hword : t.mem.read (t.reg .count) = s.mem.read (s.reg .count) := by
    rw [h.reg_eq, h.read _ (hload _ (load_count_mem_cycleRequests hs))]
  rcases fetch_cases s with ⟨hnone, hf⟩ | ⟨hzero, hf⟩ | ⟨op, hop, hopword, hf⟩
  · rw [hf]
    exact fetch_of_decode_error (decode_unrecognized (by rw [hword, hnone]) _)
  · rw [hf]
    exact fetch_of_zero (hword.trans hzero)
  · have hreq := cycleRequests_of_fetch_instr hs hf (build_ne_hlt hop _ _)
    have hP1 : P (s.reg .count + 1#16) := hload _ (by simp [hreq])
    have hP2 : P (s.reg .count + 2#16) := hload _ (by simp [hreq])
    rw [fetch_of_opcode hop (hword.trans hopword), hf, h.reg_eq, h.read _ hP1, h.read _ hP2]

/-- A step keeps the agreement on a set of addresses that holds its loads and the console words. -/
theorem AgreeOn.after_step {P : Word → Prop} {s t s' : State} (h : AgreeOn P s t)
    (hload : ∀ a, .load a ∈ cycleRequests s → P a) (hflag : P 8080#16) (hdata : P 8081#16)
    (hstep : step s = .next s') : ∃ t', step t = .next t' ∧ AgreeOn P s' t' := by
  obtain ⟨hs, u, rfl, hcases⟩ := step_cases hstep
  have ht : t.status = .running := h.status.trans hs
  have hfetch : fetch t = fetch s := h.fetch_eq hs hload
  rcases hcases with ⟨hf, rfl⟩ | ⟨i, hf, he⟩
  · exact ⟨_, step_of_fetch_fault ht (hfetch.trans hf), (h.after_halt _).after_tick hflag hdata⟩
  · obtain ⟨u', he', hagree⟩ :=
      h.after_exec (fun a ha => hload a (mem_cycleRequests_of_mem_dataRequests hs hf ha)) he
    exact ⟨_, step_of_fetch_instr ht (hfetch.trans hf) he', hagree.after_tick hflag hdata⟩

/-- Settles O37: agreement is kept on the very set of addresses on which the two memories agree. -/
theorem stepReadsOnlyItsRequests : Obligations.StepReadsOnlyItsRequests := by
  intro s t s' hstatus hregs hconsole hread hstep
  have hagree : AgreeOn (fun a => t.mem.read a = s.mem.read a) s t := ⟨hstatus, hregs, hconsole, fun _ ha => ha⟩
  obtain ⟨t', hstep', h'⟩ := hagree.after_step (fun a ha => hread a (.inl ha)) (hread _ (.inr (.inl rfl)))
    (hread _ (.inr (.inr rfl))) hstep
  exact ⟨t', hstep', h'.regs, h'.status, h'.console, h'.read⟩

end Sys2Proof.Machine
end

section
/-! PROOF. Halting and the wrap of `count`: a halted core makes no step, and an instruction may lie across the top of memory. -/

namespace Sys2Proof.Machine

theorem step_of_halted {s : State} {c : HaltCode} (h : s.status = .halted c) : step s = .fault (.coreHalted c) := by
  simp [step, h]

/-- Settles O14, by induction on the run. -/
theorem haltedCoreMakesNoStep : Obligations.HaltedCoreMakesNoStep := by
  intro s c hs
  refine ⟨step_of_halted hs, fun t ht => ?_⟩
  induction ht with
  | refl => rfl
  | next _ hstep ih =>
    rw [ih, step_of_halted hs] at hstep
    cases hstep

/-- R22: what an instruction reads from a register is the working copy's value. -/
theorem State.reg_advance_eq_operand (s : State) (r : Reg) : s.advance.reg r = s.operand r := s.reg_advance r

/-- R82, R84: the advance stands when another register is written. -/
theorem State.count_advance_setReg_of_ne {r : Reg} (h : r ≠ .count) (s : State) (v : Word) :
    (s.advance.setReg r v).reg .count = s.reg .count + 3#16 := by
  rw [State.reg_setReg_of_ne h.symm, State.count_advance]

/-- R82, R103: `count` goes on by 3 unless the instruction is HLT or writes `count` itself. -/
theorem Effect.count_eq {s t : State} {i : Instr} (h : Effect s i t) (hi : i ≠ .hlt) (hw : ¬ WritesCount i s) :
    t.reg .count = s.reg .count + 3#16 := by
  cases h with
  | hlt => exact absurd rfl hi
  | sav r1 r2 => rfl
  | pnt r1 r2 => exact s.count_advance_setReg_of_ne (fun h => hw (congrArg Reg.word h)) _
  | set r1 imm => exact s.count_advance_setReg_of_ne (fun h => hw (congrArg Reg.word h)) _
  | cpy r1 r2 => exact s.count_advance_setReg_of_ne (fun h => hw (congrArg Reg.word h)) _
  | jump r1 r2 hne => exact absurd ⟨r1, rfl, s.reg_advance_eq_operand r1 ▸ hne⟩ hw
  | fallThrough r1 r2 hz => rfl
  | _ => exact s.count_advance_setReg_of_ne (by decide) _

/-- R22, R82: the cycle of an instruction with operands, wherever it lies; the addresses wrap modulo 65536. -/
theorem cycleRunsThenGoesTo_of_opcode {s : State} {op : Opcode} (hs : s.status = .running) (hop : op ≠ .hlt)
    (hword : s.mem.read (s.reg .count) = op.word) :
    CycleRunsThenGoesTo (op.build (s.mem.read (s.reg .count + 1#16)) (s.mem.read (s.reg .count + 2#16)))
      (s.reg .count + 3#16) s := by
  have hf := fetch_of_opcode hop hword
  obtain ⟨u, he⟩ := exec_next (op.build (s.mem.read (s.reg .count + 1#16)) (s.mem.read (s.reg .count + 2#16))) s
  refine ⟨hf, s.count_advance, u, he, step_of_fetch_instr hs hf he, fun hwf hw => ?_⟩
  rcases exec_cases _ s with ⟨hill, -⟩ | ⟨-, v, e, heff⟩
  · rw [hwf] at hill
    cases hill
  · rw [he] at e
    cases e
    rw [reg_tick, heff.count_eq (build_ne_hlt hop _ _) hw]

/-- R93: the cycle of a SET of a register, wherever it lies. -/
theorem step_of_set {s : State} {r1 : Reg} (hs : s.status = .running) (hword : s.mem.read (s.reg .count) = 3#16)
    (hreg : s.mem.read (s.reg .count + 1#16) = r1.word) :
    ∃ t, step s = .next t ∧ t.reg r1 = s.mem.read (s.reg .count + 2#16) ∧
      (r1 ≠ .count → t.reg .count = s.reg .count + 3#16) ∧ KeepsRegsExcept [r1, .count] s t := by
  have hf : fetch s = .instr (.set r1.word (s.mem.read (s.reg .count + 2#16))) := by
    rw [← hreg]
    exact fetch_of_opcode (op := .set) (by decide) hword
  refine ⟨_, step_of_fetch_instr hs hf (Effect.set r1 _).exec_eq, by simp, fun hr => ?_, fun q hq => ?_⟩
  · rw [reg_tick, State.count_advance_setReg_of_ne hr]
  · obtain ⟨hq1, hqcount⟩ : q ≠ r1 ∧ q ≠ .count := by simpa using hq
    rw [reg_tick, State.reg_setReg_of_ne hq1, State.reg_advance_of_ne hqcount]

/-- Settles O15: the cycle anywhere, at the addresses 65534 and 65535. -/
theorem instructionWrapsAtTopOfMemory : Obligations.InstructionWrapsAtTopOfMemory := by
  refine ⟨fun s op hs hop hcount hword => ?_, fun s op hs hop hcount hword => ?_,
    fun s r1 hs hcount hword hreg => ?_, fun s r1 hs hcount hword hreg => ?_⟩
  · have h := cycleRunsThenGoesTo_of_opcode hs hop (by rwa [hcount])
    rwa [hcount] at h
  · have h := cycleRunsThenGoesTo_of_opcode hs hop (by rwa [hcount])
    rwa [hcount] at h
  · have h := step_of_set (r1 := r1) hs (by rwa [hcount]) (by rwa [hcount])
    rwa [hcount] at h
  · have h := step_of_set (r1 := r1) hs (by rwa [hcount]) (by rwa [hcount])
    rwa [hcount] at h

end Sys2Proof.Machine
end

section
/-! PROOF. Registers and the start of a run: the register names, memory as its words, and the reset table. -/

namespace Sys2Proof.Machine

/-- Settles O6. -/
theorem registerNamesAreDistinctIndices : Obligations.RegisterNamesAreDistinctIndices := by
  refine ⟨rfl, fun r => ?_⟩
  cases r <;> decide

/-! ### Canonical memories -/

/-- The first cell of a canonical list is at the lowest address that reads as something else than an unlisted one. -/
theorem Memory.lookup_head_ne {lo k : Nat} {w : Word} {m : Memory} (h : Memory.wfFrom lo ((k, w) :: m) = true) :
    Memory.lookup ((k, w) :: m) k ≠ Config.unlistedWord := by
  obtain ⟨-, -, hw, -⟩ := Memory.wfFrom_cons.1 h
  simpa [Memory.lookup_cons] using hw

theorem Memory.le_of_lookup_ne {lo n : Nat} {m : Memory} (h : m.wfFrom lo = true)
    (hn : m.lookup n ≠ Config.unlistedWord) : lo ≤ n :=
  Nat.le_of_not_lt fun hlt => hn (Memory.lookup_of_wfFrom_lt h hlt)

theorem Memory.wfFrom_head {lo k : Nat} {w : Word} {m : Memory} (h : Memory.wfFrom lo ((k, w) :: m) = true) :
    Memory.wfFrom k ((k, w) :: m) = true := by
  obtain ⟨-, hrest⟩ := Memory.wfFrom_cons.1 h
  exact Memory.wfFrom_cons.2 ⟨le_refl k, hrest⟩

/-- Canonical lists with the same contents have their first cells at the same address, and so on down the lists. -/
theorem Memory.eq_of_lookup_eq {m n : Memory} {lo : Nat} (hm : m.wfFrom lo = true) (hn : n.wfFrom lo = true)
    (h : ∀ a < Config.memorySize, m.lookup a = n.lookup a) : m = n := by
  induction m generalizing n lo with
  | nil =>
    cases n with
    | nil => rfl
    | cons d n =>
      obtain ⟨k, w⟩ := d
      obtain ⟨-, hk, -, -⟩ := Memory.wfFrom_cons.1 hn
      exact absurd (h k hk).symm (Memory.lookup_head_ne hn)
  | cons c m ih =>
    obtain ⟨j, v⟩ := c
    obtain ⟨-, hj, -, hmtail⟩ := Memory.wfFrom_cons.1 hm
    cases n with
    | nil => exact absurd (h j hj) (Memory.lookup_head_ne hm)
    | cons d n =>
      obtain ⟨k, w⟩ := d
      obtain ⟨-, hk, -, hntail⟩ := Memory.wfFrom_cons.1 hn
      have hkj : k ≤ j := Memory.le_of_lookup_ne (Memory.wfFrom_head hn) (h j hj ▸ Memory.lookup_head_ne hm)
      have hjk : j ≤ k := Memory.le_of_lookup_ne (Memory.wfFrom_head hm) (h k hk ▸ Memory.lookup_head_ne hn)
      obtain rfl : j = k := Nat.le_antisymm hjk hkj
      have hvw : v = w := by simpa [Memory.lookup_cons] using h j hj
      have htail : m = n := ih hmtail hntail fun a ha => by
        by_cases haj : a = j
        · subst haj
          rw [Memory.lookup_of_wfFrom_lt hmtail (Nat.lt_succ_self a),
            Memory.lookup_of_wfFrom_lt hntail (Nat.lt_succ_self a)]
        · simpa [Memory.lookup_cons, Ne.symm haj] using h a ha
      rw [hvw, htail]

/-- Settles O32: every address below the memory's size is a word's value. -/
theorem canonicalMemoryIsItsContents : Obligations.CanonicalMemoryIsItsContents := by
  intro m n hm hn h
  refine Memory.eq_of_lookup_eq hm hn fun a ha => ?_
  have hnat : (BitVec.ofNat 16 a).toNat = a := Nat.mod_eq_of_lt ha
  have hread := h (BitVec.ofNat 16 a)
  rwa [Memory.read, Memory.read, hnat] at hread

/-- Settles O34. -/
theorem startMemoryIsCanonical : Obligations.StartMemoryIsCanonical :=
  ⟨Memory.wf_reset, fun _ initMem image => Memory.wf_load Config.loadOffset image (Memory.wf_ofFn initMem)⟩

/-- The empty list is the memory that reads everywhere as an unlisted word. -/
theorem Memory.ofFn_unlisted : Memory.ofFn (fun _ => Config.unlistedWord) = [] :=
  canonicalMemoryIsItsContents _ _ (Memory.wf_ofFn _) rfl fun a => by rw [Memory.read_ofFn, Memory.read_nil]

/-- Settles O43: the register files are the same, and so are the memories, as `Memory.ofFn_unlisted` says. -/
theorem resetIsTheZeroInstance : Obligations.ResetIsTheZeroInstance := by
  have hmem : (State.start (fun _ => 0#16) (fun _ => 0#16) []).mem = [] := by
    rw [State.mem_start, Memory.load]
    exact Memory.ofFn_unlisted
  rw [Obligations.ResetIsTheZeroInstance, State.mk.injEq]
  exact ⟨rfl, rfl, hmem.symm, rfl⟩

/-! ### Loading an image -/

/-- The address of a word counted from the word after the first. -/
theorem add_one_add_ofNat (a : Word) (i : Nat) : a + 1#16 + BitVec.ofNat 16 i = a + BitVec.ofNat 16 (i + 1) := by
  rw [BitVec.ofNat_add, BitVec.add_comm (BitVec.ofNat 16 i), BitVec.add_assoc]

/-- R125: a word that the image does not cover stays. -/
theorem Memory.read_load_of_not_covered {a b : Word} {ws : List Word} (m : Memory)
    (h : ∀ i < ws.length, a + BitVec.ofNat 16 i ≠ b) : (m.load a ws).read b = m.read b := by
  induction ws generalizing m a with
  | nil => rfl
  | cons w ws ih =>
    have hb : b ≠ a := fun hba => h 0 (by simp) (by simp [hba])
    have hrest : ∀ i < ws.length, a + 1#16 + BitVec.ofNat 16 i ≠ b := fun i hi => by
      rw [add_one_add_ofNat]
      exact h (i + 1) (by simpa using hi)
    rw [Memory.load, ih _ hrest, Memory.read_write_of_ne hb]

/-- R125: an image word that no later one overwrites is at its address. -/
theorem Memory.read_load_of_last {a : Word} {ws : List Word} (m : Memory) {i : Nat} (hi : i < ws.length)
    (h : ∀ j, i < j → j < ws.length → BitVec.ofNat 16 j ≠ BitVec.ofNat 16 i) :
    (m.load a ws).read (a + BitVec.ofNat 16 i) = ws[i] := by
  induction ws generalizing m a i with
  | nil => simp at hi
  | cons w ws ih =>
    cases i with
    | zero =>
      have hlater : ∀ j < ws.length, a + 1#16 + BitVec.ofNat 16 j ≠ a := fun j hj heq => by
        refine h (j + 1) (Nat.succ_pos j) (by simpa using hj) ?_
        rwa [add_one_add_ofNat, add_eq_left] at heq
      simp [Memory.load, Memory.read_load_of_not_covered _ hlater]
    | succ i =>
      have hlater : ∀ j, i < j → j < ws.length → BitVec.ofNat 16 j ≠ BitVec.ofNat 16 i := fun j hij hj heq =>
        h (j + 1) (by omega) (by simpa using hj) (by rw [BitVec.ofNat_add, BitVec.ofNat_add, heq])
      rw [← add_one_add_ofNat, Memory.load, ih _ (by simpa using hi) hlater, List.getElem_cons_succ]

theorem ofNat_eq_ofNat_iff {i j : Nat} : BitVec.ofNat 16 i = BitVec.ofNat 16 j ↔ i % 65536 = j % 65536 := by
  rw [← BitVec.toNat_inj, BitVec.toNat_ofNat, BitVec.toNat_ofNat]

/-- Settles O42: the image is loaded from address 0, so its word i goes to the address i modulo 65536. -/
theorem startStateIsTheResetTable : Obligations.StartStateIsTheResetTable := by
  intro resetRegs initMem image
  refine ⟨rfl, fun r hr => State.reg_start hr .., rfl, rfl, fun i hi hlast => ?_, fun a ha => ?_⟩
  · have hread := Memory.read_load_of_last (a := Config.loadOffset) (Memory.ofFn initMem) hi
      fun j hij hj heq => hlast j hij hj (ofNat_eq_ofNat_iff.1 heq)
    rwa [Config.loadOffset, BitVec.zero_add] at hread
  · have hfree : ∀ i < image.length, Config.loadOffset + BitVec.ofNat 16 i ≠ a := fun i hi heq => by
      refine ha i hi ?_
      rw [← heq, Config.loadOffset, BitVec.zero_add, BitVec.toNat_ofNat]
    rw [State.mem_start, Memory.read_load_of_not_covered _ hfree, Memory.read_ofFn]

end Sys2Proof.Machine
end

section
/-! PROOF. Memory and the bus: what the core does with a `Fail`, what the CORE's controller answers, and memory after a step. -/

namespace Sys2Proof.Machine

/-! ### The reaction to `Fail`, of any peripheral -/

section
variable {per : Peripheral} {s : State}

/-- R78: the opcode fetch is answered `Fail`. -/
theorem fetchOn_of_load_fail {code : Nat} (h : per.load s.mem (s.reg .count) = .fail code) :
    fetchOn per s = .fault .busFailure := by
  simp only [fetchOn, h]

/-- R80: once the opcode is known to have operands, the rest of the fetch is that of the operands. -/
theorem fetchOn_of_load_opcode {op : Opcode} (hop : op ≠ .hlt) (h : per.load s.mem (s.reg .count) = .data op.word) :
    fetchOn per s = fetchOperands per s.mem (s.reg .count) op := by
  cases op with
  | hlt => exact absurd rfl hop
  | _ => simp only [fetchOn, h, Opcode.ofWord_word]

/-- R80: either operand fetch is answered `Fail`; the second is not issued after a `Fail` to the first. -/
theorem fetchOperands_of_load_fail {m : Memory} {p : Word} {code : Nat}
    (h : per.load m (p + 1#16) = .fail code ∨ per.load m (p + 2#16) = .fail code) (op : Opcode) :
    fetchOperands per m p op = .fault .busFailure := by
  unfold fetchOperands
  cases h1 : per.load m (p + 1#16) with
  | fail code' => rfl
  | data w1 =>
    have h2 : per.load m (p + 2#16) = .fail code := h.resolve_left (by simp [h1])
    simp only [h2]

theorem busLoad_of_load_fail {a : Word} {code : Nat} (h : per.load s.mem a = .fail code) (body : Word → State) :
    busLoad per s a body = raiseFault .busFailure s := by
  simp only [busLoad, h]

theorem busStore_of_store_fail {a v : Word} {code : Nat} {m : Memory} (h : per.store s.mem a v = (.fail code, m))
    (body : Memory → State) : busStore per s a v body = raiseFault .busFailure s := by
  simp only [busStore, h]

end

/-- R91: PNT of two registers is one `Load`, from the address that the first one holds. -/
theorem pntOn_word (per : Peripheral) (r1 r2 : Reg) (s : State) :
    pntOn per r1.word r2.word s = busLoad per s (s.operand r1) fun v => s.advance.setReg r2 v := by
  rw [pntOn, withRegs_word, State.reg_advance_eq_operand]

/-- R92: SAV of two registers is one `Store`, of the first one's value to the address that the second one holds. -/
theorem savOn_word (per : Peripheral) (r1 r2 : Reg) (s : State) :
    savOn per r1.word r2.word s =
      busStore per s (s.operand r2) (s.operand r1) fun m => s.advance.setMem m := by
  rw [savOn, withRegs_word, State.reg_advance_eq_operand, State.reg_advance_eq_operand]

/-- Settles O11, request by request. -/
theorem anyBusFailureIsFaultThree : Obligations.AnyBusFailureIsFaultThree := by
  refine ⟨fun per s code h => fetchOn_of_load_fail h, fun per s op code hop hword h => ?_,
    fun per s r1 r2 code h => ?_, fun per s r1 r2 code m h => ?_⟩
  · rw [fetchOn_of_load_opcode hop hword, fetchOperands_of_load_fail h]
  · rw [pntOn_word, busLoad_of_load_fail h]
  · rw [savOn_word, busStore_of_store_fail h]

/-! ### What an instruction leaves of the run status, the console and memory -/

section
variable {s t : State} {i : Instr}

/-- R27, R90: HLT is the one instruction that changes the run status when its operands are legal. -/
theorem Effect.status_cases (h : Effect s i t) : t.status = s.status ∨ t = s.halt .normal := by
  cases h with
  | hlt => exact .inr rfl
  | _ => exact .inl rfl

theorem Effect.console_eq (h : Effect s i t) : t.console = s.console := by
  cases h <;> rfl

/-- R41, R56: the memory after an instruction is what the controller makes of its data request. -/
theorem Effect.mem_eq_serveAll (h : Effect s i t) : t.mem = serveAll s.mem (dataRequests s i) := by
  cases h with
  | pnt r1 r2 => simp [dataRequests]
  | sav r1 r2 => simp [dataRequests]
  | _ => rfl

/-- R81, R87: an instruction that fails the register check makes no data request. -/
theorem dataRequests_of_not_wellFormed (h : i.wellFormed = false) (s : State) : dataRequests s i = [] := by
  have hnone {w1 w2 : Word} (hw : (isRegisterOperand w1 && isRegisterOperand w2) = false) :
      Reg.ofWord w1 = none ∨ Reg.ofWord w2 = none := by
    simpa only [Bool.and_eq_false_iff, isRegisterOperand_eq_false_iff, ← Reg.ofWord_eq_none_iff] using hw
  cases i with
  | pnt w1 w2 => rcases hnone h with h | h <;> simp [dataRequests, h]
  | sav w1 w2 => rcases hnone h with h | h <;> simp [dataRequests, h]
  | _ => rfl

/-- R92: SAV is the one instruction with a `Store`, so no other changes memory. -/
theorem serveAll_dataRequests_of_ne_sav (h : i.opcode ≠ .sav) (s : State) :
    serveAll s.mem (dataRequests s i) = s.mem := by
  cases i with
  | sav w1 w2 => exact absurd rfl h
  | pnt w1 w2 =>
    simp only [dataRequests]
    split <;> rfl
  | _ => rfl

/-- `exec_cases` read from the state answered: it is that of fault 2, or the one of `Effect`. -/
theorem exec_inversion (he : exec i s = .next t) :
    (i.wellFormed = false ∧ t = raiseFault .registerOutOfRange s) ∨ (i.wellFormed = true ∧ Effect s i t) := by
  rcases exec_cases i s with ⟨hwf, e⟩ | ⟨hwf, u, e, heff⟩ <;> rw [he] at e <;> cases e
  · exact .inl ⟨hwf, rfl⟩
  · exact .inr ⟨hwf, heff⟩

/-- R27, R83: the core's part of a cycle keeps the run status, or it halts the core and changes nothing else, and the code is
never that of a bus failure. -/
theorem exec_status_cases (he : exec i s = .next t) :
    t.status = s.status ∨ ∃ c, c ≠ .busFailure ∧ t = s.halt c := by
  obtain ⟨-, rfl⟩ | ⟨-, heff⟩ := exec_inversion he
  · exact .inr ⟨.registerOutOfRange, by decide, rfl⟩
  · exact heff.status_cases.imp_right fun h => ⟨.normal, by decide, h⟩

theorem exec_console_eq (he : exec i s = .next t) : t.console = s.console := by
  obtain ⟨-, rfl⟩ | ⟨-, heff⟩ := exec_inversion he
  · rfl
  · exact heff.console_eq

/-- R56: the memory after an instruction, legal or not, is what the controller makes of its data request. -/
theorem exec_mem_eq_serveAll (he : exec i s = .next t) : t.mem = serveAll s.mem (dataRequests s i) := by
  obtain ⟨hwf, rfl⟩ | ⟨-, heff⟩ := exec_inversion he
  · rw [dataRequests_of_not_wellFormed hwf]
    rfl
  · exact heff.mem_eq_serveAll

end

/-- Settles O30: each part is a fact about what `exec` answers. -/
theorem onlySavChangesMemory : Obligations.OnlySavChangesMemory := by
  intro i s
  obtain ⟨t, he⟩ := exec_next i s
  refine ⟨t, he, exec_console_eq he, fun hsav => ?_, ?_⟩
  · rw [exec_mem_eq_serveAll he, serveAll_dataRequests_of_ne_sav hsav]
  · rcases exec_status_cases he with hstatus | ⟨c, -, rfl⟩
    · exact .inl hstatus
    · exact .inr ⟨c, rfl, rfl, rfl⟩

/-! ### The controller, and memory after a step -/

/-- R44: no cycle ends in fault 3: neither the fetch nor an instruction gives that code, and the tick keeps the run status. -/
theorem step_status_ne_busFailure {s t : State} (h : step s = .next t) : t.status ≠ .halted .busFailure := by
  obtain ⟨hs, u, rfl, ⟨-, rfl⟩ | ⟨i, -, he⟩⟩ := step_cases h <;> rw [status_tick]
  · simp
  · rcases exec_status_cases he with hstatus | ⟨c, hc, rfl⟩
    · simp [hstatus, hs]
    · simpa using hc

/-- Settles O12. -/
theorem controllerNeverFails : Obligations.ControllerNeverFails :=
  ⟨fun m a => ⟨_, memoryController_load m a⟩, fun m a v => ⟨_, memoryController_store m a v⟩,
    fun _ _ => step_status_ne_busFailure⟩

/-- Settles O31: a `Store` is one write of the memory's list, and the laws of a read after a write say the rest. -/
theorem controllerServesOneWord : Obligations.ControllerServesOneWord := by
  refine ⟨fun m a => ⟨rfl, rfl⟩, fun m a v => ⟨rfl, rfl, ?_, fun b hb => ?_⟩⟩
  · rw [serve_store, Memory.read_write_self]
  · rw [serve_store, Memory.read_write_of_ne hb]

/-- R87: a cycle whose fetch takes a fault loads the opcode word only. -/
theorem cycleRequests_of_fetch_fault {s : State} {c : HaltCode} (hs : s.status = .running) (hf : fetch s = .fault c) :
    cycleRequests s = [.load (s.reg .count)] := by
  simp only [cycleRequests, hs, hf]

/-- R53, R87: the fetches of a cycle leave memory as it is, so its data request alone counts. -/
theorem serveAll_cycleRequests_of_fetch_instr {s : State} {i : Instr} (hs : s.status = .running)
    (hf : fetch s = .instr i) : serveAll s.mem (cycleRequests s) = serveAll s.mem (dataRequests s i) := by
  by_cases hi : i = .hlt
  · subst hi
    simp [cycleRequests, hs, hf, dataRequests]
  · simp [cycleRequests_of_fetch_instr hs hf hi]

/-- Settles O36: the core's part of the cycle leaves the memory of its served requests, and the tick follows. -/
theorem memoryIsServedRequestsThenTick : Obligations.MemoryIsServedRequestsThenTick := by
  intro s t hstep a
  obtain ⟨hs, u, rfl, hcore⟩ := step_cases hstep
  have hmem : u.mem = serveAll s.mem (cycleRequests s) := by
    rcases hcore with ⟨hf, rfl⟩ | ⟨i, hf, he⟩
    · rw [cycleRequests_of_fetch_fault hs hf]
      rfl
    · rw [serveAll_cycleRequests_of_fetch_instr hs hf, exec_mem_eq_serveAll he]
  rw [read_tick, hmem]

end Sys2Proof.Machine
end

section
/-! PROOF. Encoding: the opcode map, the decoder and the encoder as each other's inverses, and a program through its file. -/

namespace Sys2Proof

/-! ### The instructions with operands, by their opcode -/

/-- R76: an instruction is made of its opcode and two words (of any two, for HLT). -/
theorem Instr.exists_eq_build (i : Instr) : ∃ w1 w2, i = i.opcode.build w1 w2 := by
  cases i with
  | hlt => exact ⟨0#16, 0#16, rfl⟩
  | _ w1 w2 => exact ⟨w1, w2, rfl⟩

/-- R62, R76: an instruction is HLT, or one of the other opcodes with its two operand words. -/
theorem Instr.eq_hlt_or_build (i : Instr) : i = .hlt ∨ ∃ op w1 w2, op ≠ Opcode.hlt ∧ i = op.build w1 w2 := by
  obtain ⟨w1, w2, hi⟩ := i.exists_eq_build
  by_cases hop : i.opcode = .hlt
  · rw [hop] at hi
    exact .inl hi
  · exact .inr ⟨_, w1, w2, hop, hi⟩

/-- R60 to R62: the words of an instruction with operands. -/
theorem encode_build {op : Opcode} (hop : op ≠ .hlt) (w1 w2 : Word) : encode (op.build w1 w2) = [op.word, w1, w2] := by
  cases op with
  | hlt => exact absurd rfl hop
  | _ => rfl

theorem encode_ne_nil (i : Instr) : encode i ≠ [] := by
  obtain rfl | ⟨op, w1, w2, hop, rfl⟩ := i.eq_hlt_or_build
  · simp [encode]
  · simp [encode_build hop]

/-- R62: HLT takes no operand word. -/
theorem decode_hlt (ws : List Word) : decode (Opcode.hlt.word :: ws) = .ok (.hlt, ws) := rfl

/-- R62: what the decoder takes from a sequence whose first word is an opcode with operands. -/
theorem decode_operands_inversion {w0 : Word} {op : Opcode} (h : Opcode.ofWord w0 = some op) (hop : op ≠ .hlt)
    {ws rest : List Word} {i : Instr} (hd : decode (w0 :: ws) = .ok (i, rest)) :
    ∃ w1 w2, ws = w1 :: w2 :: rest ∧ i = op.build w1 w2 := by
  match ws with
  | w1 :: w2 :: rest' =>
    rw [decode_operands h hop] at hd
    cases hd
    exact ⟨w1, w2, rfl, rfl⟩
  | [] | [_] =>
    cases op with
    | hlt => exact absurd rfl hop
    | _ => simp [decode, h] at hd

/-! ### The decoder and the encoder -/

/-- Settles O3: HLT is one word, and every other instruction its opcode's word and two more. -/
theorem decodeOfEncode : Obligations.DecodeOfEncode := by
  intro i rest
  obtain rfl | ⟨op, w1, w2, hop, rfl⟩ := i.eq_hlt_or_build
  · exact decode_hlt rest
  · rw [encode_build hop]
    exact decode_operands op.ofWord_word hop w1 w2 rest

/-- Settles O4, by what the first word is: no opcode, HLT's, or that of an instruction with operands. -/
theorem encodeOfDecode : Obligations.EncodeOfDecode := by
  intro ws i rest hd
  cases ws with
  | nil => cases hd
  | cons w0 ws =>
    cases hw : Opcode.ofWord w0 with
    | none =>
      rw [decode_unrecognized hw] at hd
      cases hd
    | some op =>
      by_cases hop : op = .hlt
      · rw [Opcode.ofWord_eq_some hw, hop, decode_hlt] at hd
        cases hd
        rw [Opcode.ofWord_eq_some hw, hop]
        rfl
      · obtain ⟨w1, w2, rfl, rfl⟩ := decode_operands_inversion hw hop hd
        rw [encode_build hop, Opcode.ofWord_eq_some hw]
        rfl

/-- Settles O1: a word that is no opcode is none of the twelve, and each opcode's word takes its own row. -/
theorem opcodeMapDecodes : Obligations.OpcodeMapDecodes := by
  intro w0 w1 w2 rest
  cases hw : Opcode.ofWord w0 with
  | none =>
    have hne (k : Word) (hk : k.toNat < 12) : w0 ≠ k := by
      rintro rfl
      exact absurd (Opcode.ofWord_eq_none_iff.1 hw) (Nat.not_le.2 hk)
    simp [decode_unrecognized hw, hne]
  | some op =>
    obtain rfl := Opcode.ofWord_eq_some hw
    cases op <;> rfl

/-- Settles O2: each sequence is the encoding of its instruction, and in S1 the operand-less HLT's word follows. -/
theorem writtenOutWordsDecode : Obligations.WrittenOutWordsDecode :=
  ⟨decodeOfEncode (.set Reg.a.word 5#16) [0#16], decodeOfEncode .hlt [], decodeOfEncode (.pnt Reg.e.word Reg.d.word) [],
    decodeOfEncode (.sav Reg.c.word Reg.d.word) [], decodeOfEncode (.cpy Reg.out.word Reg.b.word) [],
    decodeOfEncode (.add Reg.b.word Reg.a.word) [], decodeOfEncode (.jnz Reg.count.word Reg.f.word) []⟩

/-! ### A program through its file -/

/-- R74: a word is its high byte followed by its low byte. -/
theorem bytes_append_eq_word (w : Word) : w.extractLsb' 8 8 ++ w.extractLsb' 0 8 = w := by
  rw [BitVec.extractLsb'_append_extractLsb'_eq_extractLsb' (by rfl)]
  exact BitVec.extractLsb'_eq_self

/-- R74, R126: the image of the file that holds an image is that image, and an odd byte at the end is discarded. -/
theorem imageOfFile_fileOfImage_append (ws : List Word) {odd : List Byte} (hodd : odd.length ≤ 1) :
    imageOfFile (fileOfImage ws ++ odd) = ws := by
  induction ws with
  | nil =>
    match odd with
    | [] | [_] => rfl
  | cons w ws ih => simp only [fileOfImage, List.cons_append, imageOfFile, ih, bytes_append_eq_word]

/-- One instruction read, and the rest after it. -/
theorem decodeMany_of_decode {ws rest : List Word} {i : Instr} {is : List Instr} {fuel : Nat}
    (hi : decode ws = .ok (i, rest)) (his : decodeMany fuel rest = .ok is) :
    decodeMany (fuel + 1) ws = .ok (i :: is) := by
  cases ws with
  | nil => cases hi
  | cons w ws => simp only [decodeMany, hi, his]

/-- The words of a program are read back as the program, with fuel for as many instructions as there are words. -/
theorem decodeMany_flatMap_encode {prog : List Instr} {fuel : Nat} (hfuel : (prog.flatMap encode).length ≤ fuel) :
    decodeMany fuel (prog.flatMap encode) = .ok prog := by
  induction prog generalizing fuel with
  | nil => simp [decodeMany]
  | cons i is ih =>
    have hpos := List.length_pos_iff.2 (encode_ne_nil i)
    rw [List.flatMap_cons] at hfuel ⊢
    rw [List.length_append] at hfuel
    obtain ⟨fuel, rfl⟩ := Nat.exists_eq_add_of_le' (show 1 ≤ fuel by omega)
    exact decodeMany_of_decode (decodeOfEncode i _) (ih (by omega))

/-- Settles O5: the file gives the words back, and the words the program. -/
theorem programFileRoundTrip : Obligations.ProgramFileRoundTrip := by
  intro prog odd hodd
  rw [imageOfFile_fileOfImage_append _ hodd]
  exact decodeMany_flatMap_encode le_rfl

/-! ### Register operand words -/

/-- R62: the operand word of a register is its index. -/
theorem Reg.toNat_word (r : Reg) : r.word.toNat = r.index := by
  cases r <;> rfl

theorem Reg.isSome_ofWord_iff {w : Word} : (Reg.ofWord w).isSome = true ↔ w.toNat ≤ 7 := by
  rw [Option.isSome_iff_ne_none, Ne, Reg.ofWord_eq_none_iff, Nat.not_lt]

/-- Settles O7. -/
theorem registerOperandRange : Obligations.RegisterOperandRange := by
  refine ⟨fun w => Reg.isSome_ofWord_iff, fun w r h => ?_, fun r => ⟨r.ofWord_word, r.toNat_word⟩⟩
  rw [Reg.ofWord_eq_some h, r.toNat_word]

end Sys2Proof
end

section
/-! PROOF. Legal and illegal encodings: what the three words at `count` do to the run status, and which runs are safe. -/

namespace Sys2Proof.Machine

/-! ### The run status after a step -/

/-- R64, R65, R67: which operand words make a legal instruction. -/
theorem wellFormed_build_iff {op : Opcode} (hop : op ≠ .hlt) (w1 w2 : Word) :
    (op.build w1 w2).wellFormed = true ↔ w1.toNat ≤ 7 ∧ (op ≠ .set → w2.toNat ≤ 7) := by
  cases op with
  | hlt => exact absurd rfl hop
  | _ => simp [Opcode.build, Instr.wellFormed, isRegisterOperand]

/-- R67: the first word is no opcode. -/
theorem statusAfter_of_unrecognized {w0 : Word} (h : Opcode.ofWord w0 = none) (w1 w2 : Word) :
    statusAfter w0 w1 w2 = .halted .unrecognizedOpcode := by
  have h12 := Opcode.ofWord_eq_none_iff.1 h
  have h0 : w0.toNat ≠ 0 := by omega
  simp [statusAfter, h0, h12]

/-- R67: the first word is an opcode with operands; only its register check can halt the core. -/
theorem statusAfter_word {op : Opcode} (hop : op ≠ .hlt) (w1 w2 : Word) :
    statusAfter op.word w1 w2 =
      if (op.build w1 w2).wellFormed = true then .running else .halted .registerOutOfRange := by
  have h0 : op.word.toNat ≠ 0 := by
    cases op with
    | hlt => exact absurd rfl hop
    | _ => decide
  have h3 : op.word.toNat ≠ 3 ↔ op ≠ .set := by cases op <;> decide
  have h12 : ¬ 12 ≤ op.word.toNat := Nat.not_le.2 op.word_lt
  simp only [statusAfter, if_neg h0, if_neg h12, h3, wellFormed_build_iff hop]
  by_cases hw1 : 7 < w1.toNat
  · rw [if_pos hw1, if_neg fun h => Nat.not_le.2 hw1 h.1]
  · have hlegal : (w1.toNat ≤ 7 ∧ (op ≠ .set → w2.toNat ≤ 7)) ↔ ¬ (op ≠ .set ∧ 7 < w2.toNat) := by
      rw [and_iff_right (Nat.not_lt.1 hw1), not_and, Nat.not_lt]
    simp only [if_neg hw1, hlegal, ite_not]

section
variable {s t : State} {i : Instr}

/-- R77: a running core makes a step. -/
theorem exists_step_of_running (hs : s.status = .running) : ∃ t, step s = .next t := by
  cases hf : fetch s with
  | fault c => exact ⟨_, step_of_fetch_fault hs hf⟩
  | instr i =>
    obtain ⟨u, he⟩ := exec_next i s
    exact ⟨_, step_of_fetch_instr hs hf he⟩

/-- R27: no instruction but HLT changes the run status when its operands are legal. -/
theorem Effect.status_eq (h : Effect s i t) (hi : i ≠ .hlt) : t.status = s.status := by
  cases h with
  | hlt => exact absurd rfl hi
  | _ => rfl

/-- R67, R81: the run status after an instruction with operands, in a running core. -/
theorem exec_status (hs : s.status = .running) (hi : i ≠ .hlt) (he : exec i s = .next t) :
    t.status = if i.wellFormed = true then .running else .halted .registerOutOfRange := by
  obtain ⟨hwf, rfl⟩ | ⟨hwf, heff⟩ := exec_inversion he
  · simp [hwf]
  · rw [if_pos hwf, heff.status_eq hi, hs]

/-- R67: the run status after a step is told by the three words at `count`. -/
theorem step_status (h : step s = .next t) :
    t.status = statusAfter (s.mem.read (s.reg .count)) (s.mem.read (s.reg .count + 1#16))
      (s.mem.read (s.reg .count + 2#16)) := by
  have hs : s.status = .running := (step_cases h).1
  rcases fetch_cases s with ⟨hnone, hf⟩ | ⟨hzero, hf⟩ | ⟨op, hop, hword, hf⟩
  · rw [step_of_fetch_fault hs hf] at h
    cases h
    rw [status_tick, status_raiseFault, statusAfter_of_unrecognized hnone]
  · rw [step_of_fetch_instr hs hf Effect.hlt.exec_eq] at h
    cases h
    rw [hzero, status_tick]
    rfl
  · obtain ⟨u, he⟩ := exec_next (op.build (s.mem.read (s.reg .count + 1#16)) (s.mem.read (s.reg .count + 2#16))) s
    rw [step_of_fetch_instr hs hf he] at h
    cases h
    rw [status_tick, exec_status hs (build_ne_hlt hop _ _) he, hword, statusAfter_word hop]

/-- R67, R83: a cycle that halts the core changes no register. -/
theorem step_keepsRegs_of_status_ne_running (h : step s = .next t) (hhalt : t.status ≠ .running) :
    KeepsRegsExcept [] s t := by
  intro r _
  obtain ⟨hs, u, rfl, ⟨-, rfl⟩ | ⟨i, -, he⟩⟩ := step_cases h <;> rw [reg_tick]
  · rfl
  · rcases exec_status_cases he with hstatus | ⟨c, -, rfl⟩
    · exact absurd (by rw [status_tick, hstatus, hs]) hhalt
    · rfl

end

/-- Settles O9. -/
theorem illegalEncodingsFault : Obligations.IllegalEncodingsFault := by
  intro s hs
  obtain ⟨t, hstep⟩ := exists_step_of_running hs
  exact ⟨t, hstep, step_status hstep, step_keepsRegs_of_status_ne_running hstep⟩

/-! ### Safe runs -/

section
variable {s t : State} {i : Instr}

/-- R107: a fault is known by the run status alone. -/
theorem State.faulted_congr (h : t.status = s.status) : t.faulted ↔ s.faulted := by
  rw [State.faulted, State.faulted, h]

theorem State.faulted_halt_iff {c : HaltCode} : (s.halt c).faulted ↔ c ≠ .normal := by
  simp [State.faulted]

theorem State.not_faulted_of_running (h : s.status = .running) : ¬ s.faulted := by
  simp [State.faulted, h]

theorem State.legalNext_iff (hf : fetch s = .instr i) : s.legalNext ↔ i.wellFormed = true := by
  simp [State.legalNext, hf]

theorem State.not_legalNext_of_fetch_fault {c : HaltCode} (hf : fetch s = .fault c) : ¬ s.legalNext := by
  simp [State.legalNext, hf]

/-- R67, R107: a step ends in a fault exactly when the instruction it comes to is not legal. -/
theorem faulted_iff_of_step (h : step s = .next t) : t.faulted ↔ ¬ s.legalNext := by
  obtain ⟨hs, u, rfl, hcore⟩ := step_cases h
  rw [State.faulted_congr (status_tick u)]
  rcases hcore with ⟨hf, rfl⟩ | ⟨i, hf, he⟩
  · exact iff_of_true (State.faulted_halt_iff.2 (by decide)) (State.not_legalNext_of_fetch_fault hf)
  · rw [State.legalNext_iff hf]
    obtain ⟨hwf, rfl⟩ | ⟨hwf, heff⟩ := exec_inversion he
    · exact iff_of_true (State.faulted_halt_iff.2 (by decide)) (by simp [hwf])
    · refine iff_of_false ?_ (by simp [hwf])
      rcases heff.status_cases with hstatus | rfl
      · exact State.not_faulted_of_running (hstatus.trans hs)
      · simp [State.faulted_halt_iff]

end

/-- Settles O46: in a safe run the step from each running state shows its instruction legal; conversely, a state that
is not the first is what a step from a running, legal state has left. -/
theorem runIsSafeExactlyWhenLegal : Obligations.RunIsSafeExactlyWhenLegal := by
  intro s hs
  refine ⟨fun hsafe t ht hrun => ?_, fun hlegal t ht => ?_⟩
  · obtain ⟨u, hstep⟩ := exists_step_of_running hrun
    by_contra hillegal
    exact hsafe u (ht.next hstep) ((faulted_iff_of_step hstep).2 hillegal)
  · cases ht with
    | refl => exact hs
    | next ht hstep =>
      have hrun := (step_cases hstep).1
      exact fun hfault => (faulted_iff_of_step hstep).1 hfault (hlegal _ ht hrun)

end Sys2Proof.Machine
end

section
/-! PROOF. The cycle: one that halts changes the run status only, and its bus requests are those of the table. -/

namespace Sys2Proof.Machine

/-! ### The cycles that halt, and the cycles that do not -/

section
variable {s t : State}

/-- R83, R108: a step that halts the core is the tick of the state it started from, halted. -/
theorem step_eq_tick_halt {c : HaltCode} (h : step s = .next t) (hc : t.status = .halted c) : t = tick (s.halt c) := by
  obtain ⟨hs, u, rfl, ⟨-, rfl⟩ | ⟨i, -, he⟩⟩ := step_cases h <;> rw [status_tick] at hc
  · cases hc
    rfl
  · rcases exec_status_cases he with hstatus | ⟨c', -, rfl⟩
    · rw [hstatus, hs] at hc
      cases hc
    · cases hc
      rfl

/-- Settles O10. -/
theorem haltingCyclesArePrecise : Obligations.HaltingCyclesArePrecise := by
  intro s t c hstep hc
  obtain rfl := step_eq_tick_halt hstep hc
  exact ⟨rfl, by rw [reg_tick, State.reg_halt]⟩

/-- R81 to R85: a step that keeps the core running is the effect of the instruction whose words are at `count`, and the tick. -/
theorem exists_effect_of_step_running (h : step s = .next t) (hrun : t.status = .running) :
    ∃ i u, encode i = s.instructionWords ∧ Effect s i u ∧ t = tick u := by
  obtain ⟨-, u, rfl, ⟨-, rfl⟩ | ⟨i, hf, he⟩⟩ := step_cases h <;> rw [status_tick] at hrun
  · cases hrun
  obtain ⟨-, rfl⟩ | ⟨-, heff⟩ := exec_inversion he
  · cases hrun
  refine ⟨i, u, ?_, heff, rfl⟩
  rcases fetch_cases s with ⟨-, hf'⟩ | ⟨-, hf'⟩ | ⟨op, hop, hword, hf'⟩ <;> rw [hf] at hf' <;> cases hf'
  · cases heff
    cases hrun
  · rw [encode_build hop, State.instructionWords, hword]

end

/-! ### The requests of a cycle -/

/-- R63: the words of the opcodes with operands are 1 to 11. -/
theorem exists_opcode_of_toNat {w0 : Word} (h1 : 1 ≤ w0.toNat) (h11 : w0.toNat ≤ 11) :
    ∃ op, op ≠ Opcode.hlt ∧ w0 = op.word := by
  cases hw : Opcode.ofWord w0 with
  | none => exact absurd (Opcode.ofWord_eq_none_iff.1 hw) (by omega)
  | some op =>
    have hword := Opcode.ofWord_eq_some hw
    refine ⟨op, ?_, hword⟩
    rintro rfl
    simp [hword, Opcode.word] at h1

section
variable {s : State}

/-- R79, R87: HLT and a word that is no opcode are the only words fetched in their cycle. -/
theorem cycleRequests_of_no_operands (hs : s.status = .running)
    (hw : (s.mem.read (s.reg .count)).toNat = 0 ∨ 12 ≤ (s.mem.read (s.reg .count)).toNat) :
    cycleRequests s = [.load (s.reg .count)] := by
  rcases hw with h0 | h12
  · have hf := fetch_of_zero (BitVec.eq_of_toNat_eq h0)
    simp only [cycleRequests, hs, hf]
  · have hf := fetch_of_decode_error (s := s) (decode_unrecognized (Opcode.ofWord_eq_none_iff.2 h12) _)
    exact cycleRequests_of_fetch_fault hs hf

/-- R80, R87: the requests of the cycle of an opcode with operands. -/
theorem cycleRequests_of_opcode {op : Opcode} (hs : s.status = .running) (hop : op ≠ .hlt)
    (hword : s.mem.read (s.reg .count) = op.word) :
    cycleRequests s = .load (s.reg .count) :: .load (s.reg .count + 1#16) :: .load (s.reg .count + 2#16) ::
      dataRequests s (op.build (s.mem.read (s.reg .count + 1#16)) (s.mem.read (s.reg .count + 2#16))) :=
  cycleRequests_of_fetch_instr hs (fetch_of_opcode hop hword) (build_ne_hlt hop _ _)

end

/-- R87: no instruction with an opcode of 3 or more makes a data request. -/
theorem dataRequests_build_of_three_le {op : Opcode} (h3 : 3 ≤ op.word.toNat) (w1 w2 : Word) (s : State) :
    dataRequests s (op.build w1 w2) = [] := by
  cases op with
  | pnt => exact absurd h3 (by decide)
  | sav => exact absurd h3 (by decide)
  | _ => rfl

/-- R91: the data request of PNT. -/
theorem dataRequests_pnt (s : State) (r1 r2 : Reg) :
    dataRequests s (.pnt r1.word r2.word) = [.load (s.operand r1)] := by
  simp [dataRequests, State.reg_advance_eq_operand]

/-- R92: the data request of SAV. -/
theorem dataRequests_sav (s : State) (r1 r2 : Reg) :
    dataRequests s (.sav r1.word r2.word) = [.store (s.operand r2) (s.operand r1)] := by
  simp [dataRequests, State.reg_advance_eq_operand]

/-- Settles O35: the fetches are told by the opcode word, and the data request by the instruction. -/
theorem cycleIssuesTheTablesRequests : Obligations.CycleIssuesTheTablesRequests := by
  rintro s _ _ _ _ hs rfl rfl rfl rfl
  refine ⟨cycleRequests_of_no_operands hs, fun h1 h11 hbad => ?_, fun h3 h11 => ?_, fun r1 r2 h0 h1 h2 => ?_,
    fun r1 r2 h0 h1 h2 => ?_⟩
  · obtain ⟨op, hop, hword⟩ := exists_opcode_of_toNat h1 h11
    rw [cycleRequests_of_opcode hs hop hword, dataRequests_of_not_wellFormed]
    have hset : op ≠ .set ↔ op.word.toNat ≠ 3 := by cases op <;> decide
    rw [← Bool.not_eq_true, wellFormed_build_iff hop, hset, ← hword]
    omega
  · obtain ⟨op, hop, hword⟩ := exists_opcode_of_toNat (by omega) h11
    rw [cycleRequests_of_opcode hs hop hword, dataRequests_build_of_three_le (hword ▸ h3)]
  · have hword : s.mem.read (s.reg .count) = Opcode.pnt.word := BitVec.eq_of_toNat_eq h0
    rw [cycleRequests_of_opcode hs (by decide) hword, h1, h2, Opcode.build, dataRequests_pnt]
  · have hword : s.mem.read (s.reg .count) = Opcode.sav.word := BitVec.eq_of_toNat_eq h0
    rw [cycleRequests_of_opcode hs (by decide) hword, h1, h2, Opcode.build, dataRequests_sav]

end Sys2Proof.Machine
end

section
/-! PROOF. The step refines the spec's pseudocode of the cycle: each operation of the model is, on the abstract state, the
pseudocode's, and the halting cycles and the effect of each instruction follow. -/

namespace Sys2Proof.Machine

/-! ### The abstract state, operation by operation -/

/-- R14, R62: reading a register's operand word as an index, and the index as a register, gives the register back. -/
@[simp] theorem regOfFin_index_word (r : Reg) : regOfFin (AbstractState.index r.word) = r := by
  cases r <;> rfl

/-- R14: a cell of the register file is that of a register exactly when its index is the register's. -/
theorem regOfFin_eq_iff {i : Fin 8} {r : Reg} : regOfFin i = r ↔ i = AbstractState.index r.word := by
  have hinv : ∀ i : Fin 8, AbstractState.index (regOfFin i).word = i := by decide
  constructor
  · rintro rfl
    exact (hinv i).symm
  · rintro rfl
    exact regOfFin_index_word r

section
variable (s : State)

@[simp] theorem State.abstract_x_index (r : Reg) : s.abstract.x (AbstractState.index r.word) = s.reg r :=
  congrArg s.reg (regOfFin_index_word r)

/-- R12: a write of a register is an update of its cell. -/
theorem State.abstract_setReg (r : Reg) (v : Word) :
    (s.setReg r v).abstract = { s.abstract with x := Function.update s.abstract.x (AbstractState.index r.word) v } := by
  have hx : (s.setReg r v).abstract.x = Function.update s.abstract.x (AbstractState.index r.word) v := by
    funext i
    simp only [State.abstract, State.reg_setReg, regOfFin_eq_iff, Function.update_apply]
  rw [← hx]
  rfl

/-- R12: a write of a word of memory is an update of the memory function. -/
theorem State.abstract_write (a v : Word) :
    (s.setMem (s.mem.write a v)).abstract = { s.abstract with memory := Function.update s.abstract.memory a v } := by
  have hmem : (s.mem.write a v).read = Function.update s.mem.read a v := by
    funext b
    rw [Memory.read_write, Function.update_apply]
  simp only [State.abstract, State.mem_setMem, hmem, State.reg_setMem, State.status_setMem, State.console_setMem]

@[simp] theorem State.abstract_memory : s.abstract.memory = s.mem.read := rfl

theorem State.abstract_halt (c : HaltCode) : (s.halt c).abstract = { s.abstract with status := .halted c } := rfl

/-- R82: the working copy's registers. -/
theorem State.abstract_advance_x : s.advance.abstract.x = Function.update s.abstract.x 1 (s.reg .count + 3#16) :=
  congrArg AbstractState.x (s.abstract_setReg .count _)

end

/-! ### The tick -/

/-- R10: the high byte is the quotient by 256. -/
theorem highByte_eq (w : Word) : highByte w = BitVec.ofNat 8 (w.toNat / 256) := by
  apply BitVec.eq_of_toNat_eq
  simp [highByte, BitVec.extractLsb'_toNat, Nat.shiftRight_eq_div_pow]

/-- R10: the low byte is the remainder by 256. -/
theorem lowByte_eq (w : Word) : lowByte w = BitVec.ofNat 8 (w.toNat % 256) := by
  apply BitVec.eq_of_toNat_eq
  simp [lowByte, BitVec.extractLsb'_toNat]

/-- R115, R116: what the console emits for a nonzero flag, as the pseudocode writes it. -/
theorem consoleBytes_eq {flag : Word} (h : flag ≠ 0#16) (data : Word) :
    consoleBytes flag data =
      if flag.toNat = 2 then [BitVec.ofNat 8 (data.toNat / 256), BitVec.ofNat 8 (data.toNat % 256)]
      else [BitVec.ofNat 8 (data.toNat % 256)] := by
  have htwo : flag.toNat = 2 ↔ flag = 2#16 := BitVec.toNat_inj (y := 2#16)
  simp only [consoleBytes, if_neg h, htwo, highByte_eq, lowByte_eq]

/-- The pseudocode's test of a word against 0. -/
theorem word_toNat_eq_zero_iff {w : Word} : w.toNat = 0 ↔ w = 0#16 := BitVec.toNat_inj (y := 0#16)

/-- R115: the tick is that of the pseudocode. -/
theorem abstract_tick (s : State) : (tick s).abstract = s.abstract.tick := by
  rw [AbstractState.tick, State.abstract_memory]
  rcases tick_cases s with ⟨h0, ht⟩ | ⟨hne, ht⟩ <;> rw [ht]
  · rw [if_neg (not_not.2 (word_toNat_eq_zero_iff.2 h0))]
  · rw [if_pos (word_toNat_eq_zero_iff.not.2 hne), ← apply_ite (s.abstract.output ++ ·), consoleBytes_eq hne]
    exact (s.emit _).abstract_write 8080#16 0#16

/-- R83, R86: a cycle that discards its working copy. -/
theorem abstract_tick_halt (s : State) (c : HaltCode) : (tick (s.halt c)).abstract = s.abstract.stop c := by
  rw [abstract_tick, State.abstract_halt, AbstractState.stop]

/-! ### The effect of an instruction against `execute` -/

/-- R84: the commit of a working copy in which one register was written, by whatever expression of the same value. -/
theorem abstract_tick_advance_setReg (s : State) (r : Reg) {v v' : Word} (h : v' = v) :
    (tick (s.advance.setReg r v)).abstract =
      AbstractState.tick
        { s.abstract with x := Function.update s.advance.abstract.x (AbstractState.index r.word) v' } := by
  rw [h, abstract_tick, State.abstract_setReg]
  rfl

/-- R84: the commit of a working copy and of one word of memory. -/
theorem abstract_tick_advance_write (s : State) {a a' v v' : Word} (ha : a' = a) (hv : v' = v) :
    (tick (s.advance.setMem (s.mem.write a v))).abstract =
      AbstractState.tick
        { s.abstract with x := s.advance.abstract.x, memory := Function.update s.abstract.memory a' v' } := by
  rw [ha, hv, abstract_tick]
  exact congrArg AbstractState.tick (s.advance.abstract_write a v)

/-- R95: the pseudocode's sum. -/
theorem ofNat_sum_eq_aluAdd (u v : Word) : BitVec.ofNat 16 ((u.toNat + v.toNat) % 65536) = aluAdd u v := by
  apply BitVec.eq_of_toNat_eq
  simp [aluAdd]

/-- R96: the pseudocode's difference. -/
theorem ofNat_difference_eq_aluSub (u v : Word) :
    BitVec.ofNat 16 ((u.toNat + 65536 - v.toNat) % 65536) = aluSub u v := by
  apply BitVec.eq_of_toNat_eq
  rw [aluSub, BitVec.toNat_ofNat, BitVec.toNat_sub]
  omega

/-- R91 to R102: the state that a legal instruction with operands leaves is, after its tick, the one that the pseudocode's
`execute` gives on the instruction's three words. -/
theorem Effect.abstract_tick_eq_execute {s u : State} {i : Instr} {w0 w1 w2 : Word} (h : Effect s i u)
    (henc : encode i = [w0, w1, w2]) :
    (tick u).abstract = s.abstract.execute w0 w1 w2 s.advance.abstract.x := by
  cases h <;> cases henc
  case pnt r1 r2 => exact abstract_tick_advance_setReg s r2 (by simp)
  case sav r1 r2 => exact abstract_tick_advance_write s (by simp) (by simp)
  case set r1 => exact abstract_tick_advance_setReg s r1 rfl
  case cpy r1 r2 => exact abstract_tick_advance_setReg s r2 (by simp)
  case add r1 r2 => exact abstract_tick_advance_setReg s .out (by simp [ofNat_sum_eq_aluAdd])
  case sub r1 r2 => exact abstract_tick_advance_setReg s .out (by simp [ofNat_difference_eq_aluSub])
  case xor r1 r2 => exact abstract_tick_advance_setReg s .out (by simp [aluXor])
  case nor r1 r2 => exact abstract_tick_advance_setReg s .out (by simp [aluNor])
  case and r1 r2 => exact abstract_tick_advance_setReg s .out (by simp [aluAnd])
  case lst r1 r2 => exact abstract_tick_advance_setReg s .out (by simp [lessThan])
  case jump r1 r2 hne =>
    have htaken : (s.advance.abstract.x (AbstractState.index r1.word)).toNat ≠ 0 := by
      rwa [State.abstract_x_index, Ne, word_toNat_eq_zero_iff]
    rw [abstract_tick_advance_setReg s .count (s.advance.abstract_x_index r2)]
    exact congrArg (fun x => AbstractState.tick { s.abstract with x := x }) (if_pos htaken).symm
  case fallThrough r1 r2 hz =>
    have hnot : ¬ (s.advance.abstract.x (AbstractState.index r1.word)).toNat ≠ 0 := by
      rwa [State.abstract_x_index, not_not, word_toNat_eq_zero_iff]
    rw [abstract_tick]
    exact congrArg (fun x => AbstractState.tick { s.abstract with x := x }) (if_neg hnot).symm

/-! ### The cycle -/

/-- R86: the pseudocode's cycle, its three fetches answered by the controller, up to `execute`. -/
theorem abstract_cycle (s : State) {w0 w1 w2 : Word} (hw : s.instructionWords = [w0, w1, w2]) :
    s.abstract.cycle =
      match statusAfter w0 w1 w2 with
      | .halted c => s.abstract.stop c
      | .running => s.abstract.execute w0 w1 w2 s.advance.abstract.x := by
  have hcycle : s.abstract.cycle =
      if w0.toNat = 0 then s.abstract.stop .normal
      else if 12 ≤ w0.toNat then s.abstract.stop .unrecognizedOpcode
      else if 7 < w1.toNat then s.abstract.stop .registerOutOfRange
      else if w0.toNat ≠ 3 ∧ 7 < w2.toNat then s.abstract.stop .registerOutOfRange
      else s.abstract.execute w0 w1 w2 s.advance.abstract.x := by
    cases hw
    rw [State.abstract_advance_x]
    rfl
  rw [hcycle]
  unfold statusAfter
  split_ifs <;> rfl

/-- Settles O16: a halting cycle is precise, and any other is the effect of the instruction at `count`. -/
theorem stepIsThePseudocodeCycle : Obligations.StepIsThePseudocodeCycle := by
  intro s hs
  obtain ⟨t, hstep⟩ := exists_step_of_running hs
  refine ⟨t, hstep, ?_⟩
  rw [abstract_cycle s rfl, ← step_status hstep]
  cases hstatus : t.status with
  | halted c => rw [step_eq_tick_halt hstep hstatus, abstract_tick_halt]
  | running =>
    obtain ⟨i, u, henc, heff, rfl⟩ := exists_effect_of_step_running hstep hstatus
    exact heff.abstract_tick_eq_execute henc

end Sys2Proof.Machine
end

section
/-! PROOF. HLT: what it halts, what its fetch looks at, and why no other instruction halts normally. -/

namespace Sys2Proof.Machine

/-- R83, R90, R108: halting keeps every register, every word of memory and the console. -/
theorem haltsWith_halt (c : HaltCode) (s : State) : HaltsWith c s (s.halt c) :=
  ⟨rfl, fun _ _ => rfl, fun _ => rfl, rfl⟩

/-- R79: of any peripheral, a HLT is fetched by the answer to one `Load`. -/
theorem fetchOn_of_load_zero {per : Peripheral} {s : State} (h : per.load s.mem (s.reg .count) = .data 0#16) :
    fetchOn per s = .instr .hlt := by
  unfold fetchOn
  rw [h]
  rfl

/-- R67, R90: of the ways that three words can leave the run status, Halted(0) is that of the opcode word 0 alone. -/
theorem statusAfter_eq_normal_iff {w0 w1 w2 : Word} : statusAfter w0 w1 w2 = .halted .normal ↔ w0 = 0#16 := by
  rw [← word_toNat_eq_zero_iff]
  refine ⟨fun h => ?_, fun h0 => if_pos h0⟩
  by_contra h0
  rw [statusAfter, if_neg h0] at h
  split_ifs at h <;> cases h

/-- Settles O17: HLT halts the state it starts from, and the three words at `count` tell which steps halt normally. -/
theorem hltHaltsNormally : Obligations.HltHaltsNormally := by
  refine ⟨decode_hlt, fun s => ⟨s.halt .normal, Effect.hlt.exec_eq, haltsWith_halt .normal s, fun hs hzero => ?_⟩,
    fun per s h => fetchOn_of_load_zero h, fun per s code h => fetchOn_of_load_fail h, fun s t hstep => ?_⟩
  · exact step_of_fetch_instr hs (fetch_of_zero hzero) Effect.hlt.exec_eq
  · rw [step_status hstep, statusAfter_eq_normal_iff]

end Sys2Proof.Machine
end

section
/-! PROOF. PNT and SAV: what the instructions with operands have in common, the load, the store, and a whole cycle of SAV. -/

namespace Sys2Proof.Machine

/-! ### The opcodes with operands: decoding and faults -/

section
variable {op : Opcode}

theorem decodesAs_build (hop : op ≠ .hlt) : DecodesAs op.word op.build :=
  decode_operands op.ofWord_word hop

theorem faultsOnFetchFailure_word (hop : op ≠ .hlt) : FaultsOnFetchFailure op.word := by
  refine fun per s code => ⟨fetchOn_of_load_fail, fun hword hfail => ?_⟩
  rw [fetchOn_of_load_opcode hop hword, fetchOperands_of_load_fail hfail]

/-- R64, R81: of the opcodes with operands, SET alone takes a word that names no register. -/
theorem faultsOnBadRegisters_build (hop : op ≠ .hlt) (hset : op ≠ .set) : FaultsOnBadRegisters op.build := by
  intro s w1 w2 hbad
  have hwf : (op.build w1 w2).wellFormed = false := by
    rw [← Bool.not_eq_true, wellFormed_build_iff hop]
    rintro ⟨h1, h2⟩
    exact hbad.elim (Nat.not_lt.2 h1) (Nat.not_lt.2 (h2 hset))
  exact ⟨_, exec_of_not_wellFormed hwf s, haltsWith_halt _ s⟩

end

/-! ### What the advance, and a write after it, leave of the registers -/

section
variable (s : State)

/-- R82: the advance changes `count` alone. -/
theorem keepsRegsExcept_advance : KeepsRegsExcept [.count] s s.advance := fun _ hr =>
  State.reg_advance_of_ne (mt List.mem_singleton.2 hr) s

/-- R84: a write after the advance changes one register more. -/
theorem keepsRegsExcept_advance_setReg (r : Reg) (v : Word) :
    KeepsRegsExcept [r, .count] s (s.advance.setReg r v) := by
  intro q hq
  rw [State.reg_setReg_of_ne (List.ne_of_not_mem_cons hq),
    keepsRegsExcept_advance s q (List.not_mem_of_not_mem_cons hq)]

end

/-! ### PNT and SAV of two registers -/

/-- R91: PNT of two registers is a load into the second one of the word that the first one addresses. -/
theorem exec_pnt_word (s : State) (r1 r2 : Reg) :
    exec (.pnt r1.word r2.word) s = .next (s.advance.setReg r2 (s.mem.read (s.operand r1))) := by
  rw [(Effect.pnt r1 r2).exec_eq, State.reg_advance_eq_operand]

/-- R92: SAV of two registers is one write of memory. -/
theorem exec_sav_word (s : State) (r1 r2 : Reg) :
    exec (.sav r1.word r2.word) s = .next (s.advance.setMem (s.mem.write (s.operand r2) (s.operand r1))) := by
  rw [(Effect.sav r1 r2).exec_eq, State.reg_advance_eq_operand, State.reg_advance_eq_operand]

/-- Settles O18: the faults are those of every opcode with two register operands and of a failed `Load`; the rest is
`exec_pnt_word`. -/
theorem pntLoadsTheAddressedWord : Obligations.PntLoadsTheAddressedWord := by
  refine ⟨decodesAs_build (op := .pnt) (by decide), faultsOnFetchFailure_word (op := .pnt) (by decide),
    faultsOnBadRegisters_build (op := .pnt) (by decide) (by decide), fun s w1 w2 => rfl,
    fun per s r1 r2 code hfail => ?_, fun s r1 r2 => ⟨_, exec_pnt_word s r1 r2, ?_⟩⟩
  · rw [pntOn_word, busLoad_of_load_fail hfail]
    exact haltsWith_halt _ s
  · exact ⟨State.reg_setReg_self .., fun hr => s.count_advance_setReg_of_ne hr _,
      keepsRegsExcept_advance_setReg s r2 _, fun _ => rfl, rfl, rfl⟩

/-- Settles O19: the faults are those of every opcode with two register operands and of a failed `Store`; the rest is
`exec_sav_word` and the laws of a read after a write. -/
theorem savStoresAtTheAddress : Obligations.SavStoresAtTheAddress := by
  refine ⟨decodesAs_build (op := .sav) (by decide), faultsOnFetchFailure_word (op := .sav) (by decide),
    faultsOnBadRegisters_build (op := .sav) (by decide) (by decide), fun s w1 w2 => rfl,
    fun per s r1 r2 code m hfail => ?_, fun s r1 r2 => ⟨_, exec_sav_word s r1 r2, ?_⟩⟩
  · rw [savOn_word, busStore_of_store_fail hfail]
    exact haltsWith_halt _ s
  · exact ⟨Memory.read_write_self .., fun b hb => Memory.read_write_of_ne hb .., s.count_advance,
      keepsRegsExcept_advance s, rfl, rfl⟩

/-- R85, R92: the cycle of a SAV of two registers, its own code words and the console words being memory like any other. -/
theorem step_of_sav {s : State} {r1 r2 : Reg} {rest : List Word} (hs : s.status = .running)
    (hdecode : decode s.instructionWords = .ok (.sav r1.word r2.word, rest)) :
    step s = .next (tick (s.advance.setMem (s.mem.write (s.operand r2) (s.operand r1)))) :=
  step_of_fetch_instr hs (fetch_of_decode_ok hdecode) (exec_sav_word s r1 r2)

/-- Settles O38: the tick keeps the registers and the run status, and it finds in memory what the store left there. -/
theorem savCycleStoresThenTicks : Obligations.SavCycleStoresThenTicks := by
  intro s r1 r2 rest hs hdecode
  refine ⟨_, step_of_sav hs hdecode, ?_, ?_, fun r hr => ?_, fun a ha => ?_, ?_, ?_⟩
  · rw [status_tick, State.status_setMem, State.status_advance, hs]
  · rw [reg_tick, State.reg_setMem, State.count_advance]
  · rw [reg_tick, State.reg_setMem, keepsRegsExcept_advance s r hr]
  · rw [read_tick, if_neg ha, State.mem_setMem, Memory.read_write]
  · rw [read_tick, if_pos rfl]
  · simp only [console_tick, State.mem_setMem, State.console_setMem, State.console_advance, Memory.read_write,
      eq_comm (b := s.operand r2)]

end Sys2Proof.Machine
end

section
/-! PROOF. SET and CPY: the write of one register after the advance, and the one operand word of SET that is checked. -/

namespace Sys2Proof.Machine

/-- R82, R84: what the write of a register after the advance does and what it leaves unchanged; a write of `count` replaces the
advance. -/
theorem advance_setReg_writes (s : State) (r : Reg) (v : Word) :
    (s.advance.setReg r v).reg r = v ∧ (r ≠ .count → (s.advance.setReg r v).reg .count = s.reg .count + 3#16) ∧
    KeepsRegsExcept [r, .count] s (s.advance.setReg r v) ∧ KeepsMemory s (s.advance.setReg r v) ∧
    KeepsStatusAndConsole s (s.advance.setReg r v) :=
  ⟨State.reg_setReg_self .., fun hr => s.count_advance_setReg_of_ne hr v, keepsRegsExcept_advance_setReg s r v,
    fun _ => rfl, rfl, rfl⟩

/-- R93: a first operand word above 7 makes SET ill-formed, whatever the immediate is. -/
theorem wellFormed_set_eq_false {w1 : Word} (h : 7 < w1.toNat) (imm : Word) : (Instr.set w1 imm).wellFormed = false :=
  decide_eq_false (Nat.not_le.2 h)

/-- R94: CPY of two registers writes to the second one what the first one reads as. -/
theorem exec_cpy_word (s : State) (r1 r2 : Reg) :
    exec (.cpy r1.word r2.word) s = .next (s.advance.setReg r2 (s.operand r1)) := by
  rw [(Effect.cpy r1 r2).exec_eq, State.reg_advance_eq_operand]

/-- Settles O20: the register fault comes of the first operand word alone, so the effect is that of every immediate. -/
theorem setWritesTheImmediate : Obligations.SetWritesTheImmediate := by
  refine ⟨decodesAs_build (op := .set) (by decide), faultsOnFetchFailure_word (op := .set) (by decide),
    fun s w1 imm hbad => ?_, fun s r1 imm => ?_⟩
  · exact ⟨_, exec_of_not_wellFormed (wellFormed_set_eq_false hbad imm) s, haltsWith_halt _ s⟩
  · exact ⟨_, (Effect.set r1 imm).exec_eq, advance_setReg_writes s r1 imm⟩

/-- Settles O21: the faults are those of every opcode with two register operands; the rest is `exec_cpy_word`. -/
theorem cpyCopiesTheRegister : Obligations.CpyCopiesTheRegister := by
  refine ⟨decodesAs_build (op := .cpy) (by decide), faultsOnFetchFailure_word (op := .cpy) (by decide),
    faultsOnBadRegisters_build (op := .cpy) (by decide) (by decide), fun s r1 r2 => ?_⟩
  exact ⟨_, exec_cpy_word s r1 r2, advance_setReg_writes s r2 (s.operand r1)⟩

end Sys2Proof.Machine
end

section
/-! PROOF. ADD, SUB, XOR, NOR, AND and LST: what each operation computes, and the one rule that the six share. -/

namespace Sys2Proof.Machine

/-! ### What the operations compute -/

section
variable (u v : Word)

/-- R95: the sum, unsigned. -/
theorem toNat_aluAdd : (aluAdd u v).toNat = (u.toNat + v.toNat) % 65536 := BitVec.toNat_add u v

/-- R96: the difference as an integer, which a borrow brings back into the range of a word. -/
theorem toNat_aluSub : ((aluSub u v).toNat : Int) = ((u.toNat : Int) - v.toNat) % 65536 := by
  have hv : v.toNat < 65536 := v.isLt
  rw [aluSub, BitVec.toNat_sub]
  omega

/-- R97. -/
theorem getLsbD_aluXor (k : Nat) : (aluXor u v).getLsbD k = (u.getLsbD k ^^ v.getLsbD k) := BitVec.getLsbD_xor

/-- R98: only the 16 bits of the word are complemented. -/
theorem getLsbD_aluNor {k : Nat} (hk : k < 16) : (aluNor u v).getLsbD k = !(u.getLsbD k || v.getLsbD k) := by
  rw [aluNor, BitVec.getLsbD_not, BitVec.getLsbD_or, decide_eq_true hk, Bool.true_and]

/-- R99. -/
theorem getLsbD_aluAnd (k : Nat) : (aluAnd u v).getLsbD k = (u.getLsbD k && v.getLsbD k) := BitVec.getLsbD_and

end

/-- R100: less, unsigned. -/
theorem lessThan_of_lt {u v : Word} (h : u.toNat < v.toNat) : lessThan u v = 1#16 := if_pos h

/-- R100: equal or greater, unsigned. -/
theorem lessThan_of_le {u v : Word} (h : v.toNat ≤ u.toNat) : lessThan u v = 0#16 := if_neg (Nat.not_lt.2 h)

/-! ### The rule of the six -/

/-- R84, R95 to R100: an opcode with two register operands whose effect is to write `f` of them to `out` after the advance obeys
the ALU rule of every relation that `f` meets. `out` is not `count`, so the advance stands. -/
theorem aluRule_of_effect {op : Opcode} {f : Word → Word → Word} {result : Word → Word → Word → Prop}
    (hop : op ≠ .hlt) (hset : op ≠ .set)
    (heffect : ∀ (s : State) (r1 r2 : Reg), Effect s (op.build r1.word r2.word)
      (s.advance.setReg .out (f (s.advance.reg r1) (s.advance.reg r2))))
    (hresult : ∀ u v, result u v (f u v)) : AluRule op.word op.build result := by
  refine ⟨decodesAs_build hop, faultsOnFetchFailure_word hop, faultsOnBadRegisters_build hop hset,
    fun s r1 r2 => ⟨_, (heffect s r1 r2).exec_eq, ?_⟩⟩
  obtain ⟨hout, hcount, hframe⟩ := advance_setReg_writes s .out (f (s.advance.reg r1) (s.advance.reg r2))
  refine ⟨?_, hcount (by decide), hframe⟩
  rw [hout, State.reg_advance_eq_operand, State.reg_advance_eq_operand]
  exact hresult _ _

/-- Settles O22, by the ALU rule and the sum's value. -/
theorem addWritesTheWrappedSum : Obligations.AddWritesTheWrappedSum :=
  aluRule_of_effect (op := .add) (by decide) (by decide) (fun _ r1 r2 => .add r1 r2) toNat_aluAdd

/-- Settles O23, by the ALU rule and the difference's value. -/
theorem subWritesTheWrappedDifference : Obligations.SubWritesTheWrappedDifference :=
  aluRule_of_effect (op := .sub) (by decide) (by decide) (fun _ r1 r2 => .sub r1 r2) toNat_aluSub

/-- Settles O24, by the ALU rule and the bits of the exclusive or. -/
theorem xorWritesBitwiseXor : Obligations.XorWritesBitwiseXor :=
  aluRule_of_effect (op := .xor) (by decide) (by decide) (fun _ r1 r2 => .xor r1 r2)
    fun u v k _ => getLsbD_aluXor u v k

/-- Settles O25, by the ALU rule and the bits of the complement, which is taken on 16 bits. -/
theorem norWritesBitwiseNor : Obligations.NorWritesBitwiseNor :=
  aluRule_of_effect (op := .nor) (by decide) (by decide) (fun _ r1 r2 => .nor r1 r2)
    fun u v _ hk => getLsbD_aluNor u v hk

/-- Settles O26, by the ALU rule and the bits of the and. -/
theorem andWritesBitwiseAnd : Obligations.AndWritesBitwiseAnd :=
  aluRule_of_effect (op := .and) (by decide) (by decide) (fun _ r1 r2 => .and r1 r2)
    fun u v k _ => getLsbD_aluAnd u v k

/-- Settles O27, by the ALU rule and the two cases of the comparison. -/
theorem lstWritesUnsignedLessThan : Obligations.LstWritesUnsignedLessThan :=
  aluRule_of_effect (op := .lst) (by decide) (by decide) (fun _ r1 r2 => .lst r1 r2)
    fun _ _ => ⟨lessThan_of_lt, lessThan_of_le⟩

end Sys2Proof.Machine
end

section
/-! PROOF. JNZ and the control transfers: JNZ taken and not taken, and where each instruction leaves `count`. -/

namespace Sys2Proof.Machine

section
variable {s : State} {r1 : Reg}

/-- R102: JNZ of two registers, taken, replaces the advance by the second one's value. -/
theorem exec_jnz_word_of_ne_zero (h : s.operand r1 ≠ 0#16) (r2 : Reg) :
    exec (.jnz r1.word r2.word) s = .next (s.advance.setReg .count (s.operand r2)) := by
  rw [← s.reg_advance_eq_operand] at h ⊢
  exact (Effect.jump r1 r2 h).exec_eq

/-- R102: JNZ of two registers, not taken, is the advance alone. -/
theorem exec_jnz_word_of_eq_zero (h : s.operand r1 = 0#16) (r2 : Reg) :
    exec (.jnz r1.word r2.word) s = .next s.advance := by
  rw [← s.reg_advance_eq_operand] at h
  exact (Effect.fallThrough r1 r2 h).exec_eq

end

/-- R84: a write of `count` replaces the advance, so no other register differs. -/
theorem keepsRegsExcept_advance_setReg_count (s : State) (v : Word) :
    KeepsRegsExcept [.count] s (s.advance.setReg .count v) := fun r hr =>
  keepsRegsExcept_advance_setReg s .count v r (List.not_mem_cons_of_ne_of_not_mem (List.ne_of_not_mem_cons hr) hr)

/-- Settles O28: the faults are those of every opcode with two register operands; the rest is JNZ not taken and taken. -/
theorem jnzJumpsIfNonzero : Obligations.JnzJumpsIfNonzero := by
  refine ⟨decodesAs_build (op := .jnz) (by decide), faultsOnFetchFailure_word (op := .jnz) (by decide),
    faultsOnBadRegisters_build (op := .jnz) (by decide) (by decide), fun s r1 r2 => ?_⟩
  by_cases hzero : s.operand r1 = 0#16
  · exact ⟨_, exec_jnz_word_of_eq_zero hzero r2, absurd hzero, fun _ => s.count_advance,
      keepsRegsExcept_advance s, fun _ => rfl, rfl, rfl⟩
  · exact ⟨_, exec_jnz_word_of_ne_zero hzero r2, fun _ => State.reg_setReg_self .., fun h => absurd h hzero,
      keepsRegsExcept_advance_setReg_count s _, fun _ => rfl, rfl, rfl⟩

/-- R82, R103: a legal instruction other than HLT that does not write `count` leaves it at the next instruction. -/
theorem exec_count_of_not_writesCount {i : Instr} {s : State} (hwf : i.wellFormed = true) (hi : i ≠ .hlt)
    (hw : ¬ WritesCount i s) : ∃ t, exec i s = .next t ∧ t.reg .count = s.reg .count + 3#16 := by
  obtain ⟨t, he⟩ := exec_next i s
  obtain ⟨hill, -⟩ | ⟨-, heff⟩ := exec_inversion he
  · rw [hwf] at hill
    cases hill
  · exact ⟨t, he, heff.count_eq hi hw⟩

/-- Settles O29: each of the four transfers is a write of `count` after the advance; without one, the advance stands. -/
theorem controlTransfersAreTheTables : Obligations.ControlTransfersAreTheTables := by
  refine ⟨fun s r1 r2 hne => ?_, fun s imm => ?_, fun s r => ?_, fun s r => ?_,
    fun i s => exec_count_of_not_writesCount⟩
  · exact ⟨_, exec_jnz_word_of_ne_zero hne r2, State.reg_setReg_self ..⟩
  · exact ⟨_, (Effect.set .count imm).exec_eq, State.reg_setReg_self ..⟩
  · exact ⟨_, exec_cpy_word s r .count, State.reg_setReg_self ..⟩
  · exact ⟨_, exec_pnt_word s r .count, State.reg_setReg_self ..⟩

end Sys2Proof.Machine
end

section
/-! PROOF. The console: what the tick emits and clears, the flag after a cycle, and the output stream along a run; and the
numbers of the halt codes. -/

namespace Sys2Proof.Machine

/-! ### The bytes of a tick -/

/-- R10: the high byte, by value. -/
theorem toNat_highByte (w : Word) : (highByte w).toNat = w.toNat / 256 := by
  have hw : w.toNat < 65536 := w.isLt
  rw [highByte_eq, BitVec.toNat_ofNat]
  omega

/-- R10: the low byte, by value. -/
theorem toNat_lowByte (w : Word) : (lowByte w).toNat = w.toNat % 256 := by
  rw [lowByte_eq, BitVec.toNat_ofNat, Nat.mod_mod]

/-- R115: the flag value 2 asks for the whole word, the high byte first. -/
theorem consoleBytes_two (data : Word) : consoleBytes 2#16 data = [highByte data, lowByte data] := rfl

/-- R116: any flag value other than 0 and 2 asks for the low byte only. -/
theorem consoleBytes_of_ne {flag : Word} (h0 : flag ≠ 0#16) (h2 : flag ≠ 2#16) (data : Word) :
    consoleBytes flag data = [lowByte data] := by
  rw [consoleBytes, if_neg h0, if_neg h2]

/-- R115: with the flag at 0 the tick changes nothing. -/
theorem tick_of_flag_zero {s : State} (h : s.mem.read 8080#16 = 0#16) : tick s = s := by
  rcases tick_cases s with ⟨-, ht⟩ | ⟨hne, -⟩
  · exact ht
  · exact absurd h hne

/-- R115: the tick leaves the flag clear, whatever it was. -/
theorem flag_tick (s : State) : (tick s).mem.read 8080#16 = 0#16 := by rw [read_tick, if_pos rfl]

theorem keepsMemoryExcept_tick (s : State) : KeepsMemoryExcept 8080#16 s (tick s) := fun a ha => by
  rw [read_tick, if_neg ha]

/-- Settles O39: what the tick emits and keeps, and the two ways the core's part of a cycle ends. -/
theorem tickConsumesTheFlag : Obligations.TickConsumesTheFlag := by
  refine ⟨fun s => tick_of_flag_zero, fun s hne => ?_, fun s u i => step_of_fetch_instr, fun s c => step_of_fetch_fault⟩
  refine ⟨flag_tick s, keepsMemoryExcept_tick s, fun r _ => reg_tick s r, status_tick s,
    highByte (s.mem.read 8081#16), lowByte (s.mem.read 8081#16), toNat_highByte _, toNat_lowByte _,
    fun htwo => ?_, fun hother => ?_⟩
  · rw [console_tick, htwo, consoleBytes_two]
  · rw [console_tick, consoleBytes_of_ne hne hother]

/-! ### The flag and the stream after a step, and along a run -/

/-- Settles O40: every step with a next state ends in a tick. -/
theorem consoleFlagIsClearAfterEveryCycle : Obligations.ConsoleFlagIsClearAfterEveryCycle := by
  intro s t hstep
  obtain ⟨-, u, rfl, -⟩ := step_cases hstep
  exact flag_tick u

/-- R117: the core's part of a cycle keeps the stream, and the tick appends to it. -/
theorem console_prefix_of_step {s t : State} (h : step s = .next t) : s.console <+: t.console := by
  obtain ⟨-, u, rfl, hcore⟩ := step_cases h
  have hu : u.console = s.console := by
    rcases hcore with ⟨-, rfl⟩ | ⟨i, -, he⟩
    · rfl
    · exact exec_console_eq he
  rw [console_tick, hu]
  exact List.prefix_append _ _

/-- R30, R117: by induction on the run, since prefixes compose. -/
theorem console_prefix_of_reachable {s t : State} (h : Reachable s t) : s.console <+: t.console := by
  induction h with
  | refl => exact List.prefix_refl _
  | next _ hstep ih => exact ih.trans (console_prefix_of_step hstep)

/-- Settles O41. -/
theorem consoleStreamOnlyGrows : Obligations.ConsoleStreamOnlyGrows := by
  intro s t h
  obtain ⟨bs, hbs⟩ := console_prefix_of_reachable h
  exact ⟨bs, hbs.symm⟩

/-! ### The halt codes -/

/-- Settles O13, by the table of R106. -/
theorem haltCodesAreTheTablesNumbers : Obligations.HaltCodesAreTheTablesNumbers :=
  ⟨rfl, rfl, rfl, rfl⟩

end Sys2Proof.Machine
end

section
/-! PROOF. Before and at the first cycle: the words that a program file's bytes spell, and the core's first bus request. -/

namespace Sys2Proof.Machine

/-! ### The image of a program file -/

@[simp] theorem imageOfFile_nil : imageOfFile [] = [] := rfl
@[simp] theorem imageOfFile_singleton (b : Byte) : imageOfFile [b] = [] := rfl
@[simp] theorem imageOfFile_cons_cons (b0 b1 : Byte) (rest : List Byte) :
    imageOfFile (b0 :: b1 :: rest) = (b0 ++ b1) :: imageOfFile rest := rfl

/-- R126: two bytes a word, and a byte left over at the end is discarded. -/
theorem length_imageOfFile : ∀ bs : List Byte, (imageOfFile bs).length = bs.length / 2
  | [] | [_] => by simp
  | b0 :: b1 :: rest => by
    have ih := length_imageOfFile rest
    simp only [imageOfFile_cons_cons, List.length_cons]
    omega

/-- R126: word k is made of bytes 2k and 2k + 1. -/
theorem getElem?_imageOfFile : ∀ {bs : List Byte} {k : Nat} (h : 2 * k + 1 < bs.length),
    (imageOfFile bs)[k]? = some (bs[2 * k] ++ bs[2 * k + 1])
  | [], _, h | [_], _, h => by simp at h
  | b0 :: b1 :: rest, 0, _ => rfl
  | b0 :: b1 :: rest, k + 1, h => by
    have hk : 2 * k + 1 < rest.length := by
      simp only [List.length_cons] at h
      omega
    simpa [Nat.mul_succ] using getElem?_imageOfFile hk

/-- R74: the first byte of a word is its most significant. -/
theorem toNat_byte_append (hi lo : Byte) : (hi ++ lo).toNat = hi.toNat * 256 + lo.toNat := by
  rw [BitVec.toNat_append, ← Nat.shiftLeft_add_eq_or_of_lt lo.isLt, Nat.shiftLeft_eq]

/-- Settles O44: the file's bytes are taken in pairs, and with no image every word is as `init_mem` left it. -/
theorem programFileGivesItsImage : Obligations.ProgramFileGivesItsImage := by
  refine ⟨length_imageOfFile, fun bs k h => ?_, rfl, fun resetRegs initMem a => ?_⟩
  · rw [getElem?_imageOfFile h, Option.map_some, toNat_byte_append]
  · rw [imageOfFile_nil, State.mem_start, Memory.load, Memory.read_ofFn]

/-! ### The first request -/

/-- R87: a running core's cycle begins with the fetch of the opcode word, whatever that word is. -/
theorem head?_cycleRequests {s : State} (hs : s.status = .running) :
    (cycleRequests s).head? = some (.load (s.reg .count)) := by
  cases hf : fetch s with
  | fault c => rw [cycleRequests_of_fetch_fault hs hf, List.head?_cons]
  | instr i =>
    by_cases hi : i = .hlt
    · subst hi
      simp only [cycleRequests, hs, hf, List.head?_cons]
    · rw [cycleRequests_of_fetch_instr hs hf hi, List.head?_cons]

/-- Settles O45: a start state is running, with `count` at the entry point. -/
theorem firstFetchIsAtAddressZero : Obligations.FirstFetchIsAtAddressZero := fun resetRegs initMem image => by
  rw [head?_cycleRequests (State.status_start resetRegs initMem image), State.count_start, Config.entryPoint]

end Sys2Proof.Machine
end
